-- ==== Sys2Proof/Config.lean ====
section
/-! DEFINITION. The parameters of the core (spec/00_scope R5; the table "Parameters left open" of
spec/92_eei_decisions.md) and the free values. A parameter the spec fixes is a definition; a value the spec leaves open is
`opaque`, with no body, so that a theorem which mentions it holds whatever it is. -/

namespace Sys2Proof

/-- The byte order of a multi-byte operand in the stream (R12, "wire order"). -/
inductive ByteOrder where
  /-- The byte at the lowest offset is the most significant. -/
  | bigEndian
  /-- The byte at the lowest offset is the least significant. -/
  | littleEndian
  deriving DecidableEq, Repr

/-- The four binary operations of the ALU (R84), as the first argument of `nan_result(op, a, b)` (R88). -/
inductive AluOp where
  | add
  | sub
  | mul
  | div
  deriving DecidableEq, Repr

/-- STACK_CAPACITY (R5, D4): the number of slots of the operand stack. -/
def Config.stackCapacity : Nat := 256

/-- XLEN_F (R5): the width of a value (stack slot, register, constant), in bits. Reducible: it stands in a type. -/
abbrev Config.xlenF : Nat := 64

/-- NREG (R5, R14): the number of registers, r1 and r2. -/
def Config.nreg : Nat := 2

/-- PC_WIDTH (R5, D5): the width of the program counter, in bits. Reducible: it stands in a type. -/
abbrev Config.pcWidth : Nat := 32

/-- SP_WIDTH (R5, D6): the width of the stack pointer held as a depth count 0..256, in bits. -/
abbrev Config.spWidth : Nat := 9

/-- The largest stream length, 2^32 - 1 (R5, D5): every offset below it fits the program counter. -/
def Config.maxStreamLen : Nat := 2 ^ 32 - 1

/-- U32_WIRE_ORDER (R5, R36): the byte order of the jump address. -/
def Config.u32WireOrder : ByteOrder := .bigEndian

/-- F64_WIRE_ORDER (R5, R37, D2): the byte order of the double constant. -/
def Config.f64WireOrder : ByteOrder := .bigEndian

/-- FREE VALUE (R88, U4, D14; log entry 4): which NaN the operation `op` gives on `a` and `b`. A NaN is a sign and a
non-zero fraction of 52 bits; the pair is the sign and the fraction minus one, so that every pair is a NaN and every NaN is
a pair. No body: nothing is assumed of it. -/
opaque Config.nanResult : AluOp → BitVec Config.xlenF → BitVec Config.xlenF → Bool × Fin (0xFFFFFFFFFFFFE + 1)

/-- FREE VALUE (R87; log entry 5): "`f64_div` is left undefined for a zero divisor; no rule calls it with one". No body. -/
opaque Config.divByZero : BitVec Config.xlenF → BitVec Config.xlenF → BitVec Config.xlenF

/-- FREE VALUE (R109, D17; log entry 7): `fmt_special`, the text the sink makes of an infinity or a NaN. No body. -/
opaque Config.fmtSpecial : BitVec Config.xlenF → List Char

/-- FREE VALUE (R109, D17; log entry 7): `print_separator`, what separates two printed values. No body. -/
opaque Config.printSeparator : List Char

end Sys2Proof
end

