-- ==== Sys2Proof/Word.lean ====
section
/-! DEFINITION. The words of the machine (spec/00_scope R2, R5, R6): bytes, 64-bit values, 32-bit offsets. The
widths are the parameters of Sys2Proof/Config.lean. -/

namespace Sys2Proof

/-- One byte of the instruction stream (R6: "A byte is 8 bits"). -/
abbrev Byte := BitVec 8

/-- One binary64 value held as 64 bits (R2; parameter XLEN_F of R5): a stack slot, a register, a constant,
an operand or a result of the ALU. -/
abbrev F64 := BitVec Config.xlenF

/-- A stream offset (R16; parameter PC_WIDTH of R5): the program counter, a jump address, the length L, `fault_pc`. -/
abbrev Offset := BitVec Config.pcWidth

end Sys2Proof
end

