-- ==== Sys2Proof/Machine/Float.lean ====
section
/-! DEFINITION. The double-precision ALU (spec/00_scope R7; spec/43_arithmetic R84 to R90): exact arithmetic on naturals
and integers, narrowed once at the end. Every finite binary64 value is a whole number of units of 2^-1074, so a sum of two
is a whole number of units, and a product or a quotient is a fraction of units; `roundUnits` rounds any of them. -/

namespace Sys2Proof.Machine

/-! ## The layout (R7) -/

/-- The sign, `v[63]`. -/
def signBit (v : F64) : Bool := v.getLsbD 63

/-- The biased exponent, `v[62:52]`. -/
def expField (v : F64) : BitVec 11 := v.extractLsb' 52 11

/-- The fraction, `v[51:0]`. -/
def fracField (v : F64) : BitVec 52 := v.extractLsb' 0 52

/-- `isNaN` of R7: exponent 0x7FF, fraction not 0. -/
def isNaN (v : F64) : Bool := expField v == 0x7FF && fracField v != 0

/-- `isInf` of R7: exponent 0x7FF, fraction 0. -/
def isInf (v : F64) : Bool := expField v == 0x7FF && fracField v == 0

/-- `isZero` of R7: exponent 0, fraction 0. -/
def isZero (v : F64) : Bool := expField v == 0 && fracField v == 0

/-- How many units of 2^-1074 a finite pattern of exponent `e` and fraction `f` is worth: a subnormal is `f` units, a normal
number (1 + f/2^52) x 2^(e-1023) is (2^52 + f) x 2^(e-1) units. -/
def finiteUnits (e f : Nat) : Nat := if e = 0 then f else (2 ^ 52 + f) * 2 ^ (e - 1)

/-- What a pattern stands for (R7). -/
inductive FloatClass where
  | nan
  | inf (neg : Bool)
  | finite (neg : Bool) (units : Nat)
  deriving DecidableEq, Repr

/-- The class of a pattern (R7). -/
def classify (v : F64) : FloatClass :=
  if expField v = 0x7FF then
    if fracField v = 0 then .inf (signBit v) else .nan
  else .finite (signBit v) (finiteUnits (expField v).toNat (fracField v).toNat)

/-- A pattern from its sign and its low 63 bits. -/
def ofSignMag (neg : Bool) (mag : Nat) : F64 := BitVec.ofBool neg ++ BitVec.ofNat 63 mag

/-- The low 63 bits of an infinity. -/
def infMag : Nat := 0x7FF * 2 ^ 52

/-- The infinity of a sign. -/
def infinity (neg : Bool) : F64 := ofSignMag neg infMag

/-- The zero of a sign. -/
def zero (neg : Bool) : F64 := ofSignMag neg 0

/-- The NaN of a sign and a fraction minus one: a bijection onto the NaNs (R7). -/
def nanOf (p : Bool × Fin (0xFFFFFFFFFFFFE + 1)) : F64 := ofSignMag p.1 (infMag + (p.2.val + 1))

/-- The NaN that `op` gives on `a` and `b`: which one is open (R88, D14). -/
def nanResult (op : AluOp) (a b : F64) : F64 := nanOf (Config.nanResult op a b)

/-! ## Rounding (R84) -/

/-- `n / d` rounded to the nearest natural, ties to the even one; `d` is not 0. -/
def roundHalfEven (n d : Nat) : Nat :=
  if 2 * (n % d) < d then n / d
  else if d < 2 * (n % d) then n / d + 1
  else n / d + n / d % 2

/-- roundTiesToEven (R84): the binary64 value of sign `neg` nearest to `n / d` units of 2^-1074. `k` is how many binades
`n / d` lies above the subnormals, so neighbouring values there are 2^k units apart and the pattern of `m x 2^k` units is
`k x 2^52 + m`; a rounded magnitude past the largest finite value is an infinity. -/
def roundUnits (neg : Bool) (n d : Nat) : F64 :=
  let k := (n / d).log2 - 52
  let m := roundHalfEven n (d * 2 ^ k)
  ofSignMag neg (min (k * 2 ^ 52 + m) infMag)

/-- A sign and a magnitude as an integer. -/
def signed (neg : Bool) (units : Nat) : Int := if neg then -(units : Int) else (units : Int)

/-! ## The operations -/

/-- `f64_add` (R84, R85, R88). -/
def f64Add (a b : F64) : F64 :=
  match classify a, classify b with
  | .nan, _ => nanResult .add a b
  | _, .nan => nanResult .add a b
  | .inf s, .inf t => if s = t then infinity s else nanResult .add a b
  | .inf s, .finite _ _ => infinity s
  | .finite _ _, .inf t => infinity t
  | .finite s m, .finite t n =>
    let sum := signed s m + signed t n
    if sum = 0 then zero (s && t) else roundUnits (decide (sum < 0)) sum.natAbs 1

/-- `f64_neg` (R90): the sign bit inverted, the other 63 bits unchanged, for every pattern. -/
def f64Neg (a : F64) : F64 := BitVec.ofBool (!signBit a) ++ a.extractLsb' 0 63

/-- `f64_sub` (R85): "`f64_sub(a, b) = f64_add(a, f64_neg(b))` for every non-NaN b"; for a NaN b, a NaN (R88). -/
def f64Sub (a b : F64) : F64 :=
  if isNaN b then nanResult .sub a b else f64Add a (f64Neg b)

/-- `f64_mul` (R84, R86, R88). A product of units is a number of units of 2^-2148. -/
def f64Mul (a b : F64) : F64 :=
  match classify a, classify b with
  | .nan, _ => nanResult .mul a b
  | _, .nan => nanResult .mul a b
  | .inf s, .inf t => infinity (s ^^ t)
  | .inf s, .finite t n => if n = 0 then nanResult .mul a b else infinity (s ^^ t)
  | .finite s m, .inf t => if m = 0 then nanResult .mul a b else infinity (s ^^ t)
  | .finite s m, .finite t n => roundUnits (s ^^ t) (m * n) (2 ^ 1074)

/-- `f64_div` (R84, R87, R88). A quotient of units is a number. For a zero divisor the spec leaves it undefined and no
instruction asks for it (R87, R95): a free value. -/
def f64Div (a b : F64) : F64 :=
  match classify a, classify b with
  | .nan, _ => nanResult .div a b
  | _, .nan => nanResult .div a b
  | .inf _, .inf _ => nanResult .div a b
  | .inf s, .finite t n => if n = 0 then Config.divByZero a b else infinity (s ^^ t)
  | .finite s _, .inf t => zero (s ^^ t)
  | .finite s m, .finite t n =>
    if n = 0 then Config.divByZero a b else roundUnits (s ^^ t) (m * 2 ^ 1074) n

/-- The numerics record of decision D13: the four operations as one named parameter. -/
structure Numerics where
  add : F64 → F64 → F64
  sub : F64 → F64 → F64
  mul : F64 → F64 → F64
  div : F64 → F64 → F64

/-- The numerics of this hardware: IEEE-754 binary64, roundTiesToEven (R84, D13). -/
def numerics : Numerics where
  add := f64Add
  sub := f64Sub
  mul := f64Mul
  div := f64Div

end Sys2Proof.Machine
end

