-- ==== Sys2Proof/Machine/Flags.lean ====
section
/-! DEFINITION. There are no flags (spec/10_state R25): a jump compares r1 with r2 itself. This file holds the six
comparisons in their place (spec/00_scope R11; spec/42_jumps R73, R74): exact, no rounding, NaN unordered. -/

namespace Sys2Proof.Machine

/-- `f64_eq` (R73): the same real number or the same infinity; never with a NaN. -/
def f64Eq (a b : F64) : Bool :=
  match classify a, classify b with
  | .inf s, .inf t => s == t
  | .finite s m, .finite t n => decide (signed s m = signed t n)
  | _, _ => false

/-- `f64_lt` (R74): a less than b; never with a NaN. -/
def f64Lt (a b : F64) : Bool :=
  match classify a, classify b with
  | .inf s, .inf t => s && !t
  | .inf s, .finite _ _ => s
  | .finite _ _, .inf t => !t
  | .finite s m, .finite t n => decide (signed s m < signed t n)
  | _, _ => false

/-- `f64_le` (R74). -/
def f64Le (a b : F64) : Bool := f64Lt a b || f64Eq a b

/-- `f64_ne` (R73): `not f64_eq(a, b)`. -/
def f64Ne (a b : F64) : Bool := !f64Eq a b

/-- `f64_gt` (R74): `f64_lt(b, a)`. -/
def f64Gt (a b : F64) : Bool := f64Lt b a

/-- `f64_ge` (R74): `f64_le(b, a)`. -/
def f64Ge (a b : F64) : Bool := f64Le b a

end Sys2Proof.Machine
end

