-- ==== Sys2Proof/Syntax.lean ====
section
/-! DEFINITION. The instruction set: one constructor for each row of spec/opcode_table.json, 23 in all (spec/30_encoding
R52). The registers and the small constants are implied by the opcode (R50), so only the jumps and DCONST carry an operand. -/

namespace Sys2Proof

/-- The closed enumeration of the 23 instructions (R52, R58). -/
inductive Instr where
  /-- HALT, opcode 0x00 (R64). -/
  | halt
  /-- DCONST_M1, opcode 0x0A: push -1.0 (R67). -/
  | dconstM1
  /-- DCONST_0, opcode 0x0B: push +0.0 (R68). -/
  | dconst0
  /-- DCONST_1, opcode 0x0C: push 1.0 (R69). -/
  | dconst1
  /-- DCONST_2, opcode 0x0D: push 2.0 (R70). -/
  | dconst2
  /-- DCONST imm, opcode 0x0F: push the 64-bit immediate (R71). -/
  | dconst (imm : F64)
  /-- JEQ addr (R77). -/
  | jeq (addr : Offset)
  /-- JNE addr (R78). -/
  | jne (addr : Offset)
  /-- JLT addr (R79). -/
  | jlt (addr : Offset)
  /-- JLE addr (R80). -/
  | jle (addr : Offset)
  /-- JGT addr (R81). -/
  | jgt (addr : Offset)
  /-- JGE addr (R82). -/
  | jge (addr : Offset)
  /-- ADD, opcode 0x60 (R92). -/
  | add
  /-- SUB, opcode 0x61 (R93). -/
  | sub
  /-- MUL, opcode 0x62 (R94). -/
  | mul
  /-- DIV, opcode 0x64 (R95). -/
  | div
  /-- NEG, opcode 0x70 (R96). -/
  | neg
  /-- NOP, opcode 0xF0 (R65). -/
  | nop
  /-- PRINT, opcode 0xF2 (R106). -/
  | print
  /-- ST1, opcode 0xF4: pop into r1 (R100). -/
  | st1
  /-- LD1, opcode 0xF5: push r1 (R101). -/
  | ld1
  /-- ST2, opcode 0xF6: pop into r2 (R102). -/
  | st2
  /-- LD2, opcode 0xF7: push r2 (R103). -/
  | ld2
  deriving DecidableEq, Repr

end Sys2Proof
end

