-- ==== Sys2Proof/Decode.lean ====
section
/-! DEFINITION. The decoder and the encoder (spec/30_encoding R49 to R59; spec/20_memory R36, R37). The decoder is ONE table
from the opcode byte to the form of the instruction, the form giving both the operand width and the instruction ("a single
source of truth", R58); every other byte is refused by name. -/

namespace Sys2Proof

/-! ## Operand assembly -/

/-- `u32be` of R8, or its mirror image: the 32-bit operand whose bytes stand in the stream in the order `b0 b1 b2 b3`. -/
def u32OfWire (o : ByteOrder) (b0 b1 b2 b3 : Byte) : Offset :=
  match o with
  | .bigEndian => b0 ++ b1 ++ b2 ++ b3
  | .littleEndian => b3 ++ b2 ++ b1 ++ b0

/-- `f64be` of R8, or its mirror image: the 64-bit operand whose bytes stand in the stream in the order `b0 .. b7`. -/
def f64OfWire (o : ByteOrder) (b0 b1 b2 b3 b4 b5 b6 b7 : Byte) : F64 :=
  match o with
  | .bigEndian => b0 ++ b1 ++ b2 ++ b3 ++ b4 ++ b5 ++ b6 ++ b7
  | .littleEndian => b7 ++ b6 ++ b5 ++ b4 ++ b3 ++ b2 ++ b1 ++ b0

/-- The four bytes of a jump address in stream order (R36, R50 format J). -/
def u32ToWire (o : ByteOrder) (v : Offset) : List Byte :=
  let be : List Byte := [v.extractLsb' 24 8, v.extractLsb' 16 8, v.extractLsb' 8 8, v.extractLsb' 0 8]
  match o with
  | .bigEndian => be
  | .littleEndian => be.reverse

/-- The eight bytes of a double constant in stream order (R37, R50 format D). -/
def f64ToWire (o : ByteOrder) (v : F64) : List Byte :=
  let be : List Byte :=
    [v.extractLsb' 56 8, v.extractLsb' 48 8, v.extractLsb' 40 8, v.extractLsb' 32 8,
     v.extractLsb' 24 8, v.extractLsb' 16 8, v.extractLsb' 8 8, v.extractLsb' 0 8]
  match o with
  | .bigEndian => be
  | .littleEndian => be.reverse

/-! ## The opcode map -/

/-- The six relations of the conditional jumps (R76). -/
inductive Relation where
  | eq
  | ne
  | lt
  | le
  | gt
  | ge
  deriving DecidableEq, Repr

/-- The pairing of the six jump opcodes with the six relations, in one place (R52; decision D1 of the spec). -/
def jumpOpcode : Relation → Byte
  | .eq => 0x10
  | .ne => 0x11
  | .lt => 0x12
  | .le => 0x13
  | .gt => 0x14
  | .ge => 0x15

/-- The three formats of R49, each with what it makes of its operand. -/
inductive Form where
  /-- Format Z: the opcode byte alone. -/
  | z (i : Instr)
  /-- Format J: four operand bytes, an absolute offset. -/
  | j (make : Offset → Instr)
  /-- Format D: eight operand bytes, a binary64 pattern. -/
  | d (make : F64 → Instr)

/-- The operand width `w` of a format, in bytes (R51). -/
def formWidth : Form → Nat
  | .z _ => 0
  | .j _ => 4
  | .d _ => 8

/-- One row of the opcode map. -/
structure OpRow where
  opcode : Byte
  form : Form

/-- The complete opcode map of R52: 23 rows. -/
def opcodeTable : List OpRow :=
  [⟨0x00, .z .halt⟩,
   ⟨0x0A, .z .dconstM1⟩, ⟨0x0B, .z .dconst0⟩, ⟨0x0C, .z .dconst1⟩, ⟨0x0D, .z .dconst2⟩,
   ⟨0x0F, .d .dconst⟩,
   ⟨jumpOpcode .eq, .j .jeq⟩, ⟨jumpOpcode .ne, .j .jne⟩, ⟨jumpOpcode .lt, .j .jlt⟩,
   ⟨jumpOpcode .le, .j .jle⟩, ⟨jumpOpcode .gt, .j .jgt⟩, ⟨jumpOpcode .ge, .j .jge⟩,
   ⟨0x60, .z .add⟩, ⟨0x61, .z .sub⟩, ⟨0x62, .z .mul⟩, ⟨0x64, .z .div⟩,
   ⟨0x70, .z .neg⟩,
   ⟨0xF0, .z .nop⟩, ⟨0xF2, .z .print⟩,
   ⟨0xF4, .z .st1⟩, ⟨0xF5, .z .ld1⟩, ⟨0xF6, .z .st2⟩, ⟨0xF7, .z .ld2⟩]

/-- The form of the instruction whose opcode byte is `op`; none for the 233 illegal bytes (R55). -/
def opcodeForm (op : Byte) : Option Form :=
  (opcodeTable.find? fun r => r.opcode == op).map fun r => r.form

/-- The operand width `w(op)`, a function of the opcode byte alone (R51); none for an illegal byte. -/
def operandWidth (op : Byte) : Option Nat :=
  (opcodeForm op).map formWidth

/-! ## The decoder -/

/-- What the decoder makes of the bytes at `pc`. -/
inductive DecodeResult where
  /-- An instruction, and the bytes after it. -/
  | instr (i : Instr) (rest : List Byte)
  /-- There is no opcode byte: test (1) of R57 fails. -/
  | noOpcode
  /-- The opcode byte is not in the map of R52: test (3) of R57 fails. -/
  | illegalOpcode (op : Byte)
  /-- The opcode is legal and its operand bytes are not all there: test (5) of R57 fails. -/
  | truncatedOperand
  deriving DecidableEq, Repr

/-- Decoding, by position only, total on any bytes, the tests in the order of R57. -/
def decode : List Byte → DecodeResult
  | [] => .noOpcode
  | op :: bytes =>
    match opcodeForm op with
    | none => .illegalOpcode op
    | some (.z i) => .instr i bytes
    | some (.j make) =>
      match bytes with
      | b0 :: b1 :: b2 :: b3 :: rest => .instr (make (u32OfWire Config.u32WireOrder b0 b1 b2 b3)) rest
      | _ => .truncatedOperand
    | some (.d make) =>
      match bytes with
      | b0 :: b1 :: b2 :: b3 :: b4 :: b5 :: b6 :: b7 :: rest =>
        .instr (make (f64OfWire Config.f64WireOrder b0 b1 b2 b3 b4 b5 b6 b7)) rest
      | _ => .truncatedOperand

/-- The longest instruction, in bytes (R51: no instruction is longer than 9 bytes). -/
def maxInstrBytes : Nat := 9

/-- The bytes of an instruction whose bits are numbered as spec/opcode_table.json numbers them: bits 7..0 are the opcode
byte, bits 15..8 the byte after it, and so on; bits at or above `nbits` are 0, up to the longest instruction. -/
def tableBytes (nbits w : Nat) : List Byte :=
  (List.range maxInstrBytes).map fun k => BitVec.ofNat 8 (w % 2 ^ nbits / 2 ^ (8 * k))

/-- The instruction the decoder reads from the bits `w`; none where it refuses them. -/
def decodeTableWord (nbits w : Nat) : Option Instr :=
  match decode (tableBytes nbits w) with
  | .instr i _ => some i
  | _ => none

/-! ## The encoder -/

/-- The opcode byte of an instruction (R52). -/
def opcodeOf : Instr → Byte
  | .halt => 0x00
  | .dconstM1 => 0x0A
  | .dconst0 => 0x0B
  | .dconst1 => 0x0C
  | .dconst2 => 0x0D
  | .dconst _ => 0x0F
  | .jeq _ => jumpOpcode .eq
  | .jne _ => jumpOpcode .ne
  | .jlt _ => jumpOpcode .lt
  | .jle _ => jumpOpcode .le
  | .jgt _ => jumpOpcode .gt
  | .jge _ => jumpOpcode .ge
  | .add => 0x60
  | .sub => 0x61
  | .mul => 0x62
  | .div => 0x64
  | .neg => 0x70
  | .nop => 0xF0
  | .print => 0xF2
  | .st1 => 0xF4
  | .ld1 => 0xF5
  | .st2 => 0xF6
  | .ld2 => 0xF7

/-- The operand bytes of an instruction, in stream order (R49, R50). -/
def operandBytes : Instr → List Byte
  | .dconst imm => f64ToWire Config.f64WireOrder imm
  | .jeq addr => u32ToWire Config.u32WireOrder addr
  | .jne addr => u32ToWire Config.u32WireOrder addr
  | .jlt addr => u32ToWire Config.u32WireOrder addr
  | .jle addr => u32ToWire Config.u32WireOrder addr
  | .jgt addr => u32ToWire Config.u32WireOrder addr
  | .jge addr => u32ToWire Config.u32WireOrder addr
  | .halt | .dconstM1 | .dconst0 | .dconst1 | .dconst2 | .add | .sub | .mul | .div | .neg | .nop | .print
  | .st1 | .ld1 | .st2 | .ld2 => []

/-- The bytes of an instruction: the opcode byte, then the operand bytes (R49). -/
def encode (i : Instr) : List Byte := opcodeOf i :: operandBytes i

/-- The length of an instruction in bytes: 1, 5 or 9 (R49, R51). -/
def instrLength : Instr → Nat
  | .dconst _ => 9
  | .jeq _ | .jne _ | .jlt _ | .jle _ | .jgt _ | .jge _ => 5
  | .halt | .dconstM1 | .dconst0 | .dconst1 | .dconst2 | .add | .sub | .mul | .div | .neg | .nop | .print
  | .st1 | .ld1 | .st2 | .ld2 => 1

end Sys2Proof
end

