-- ==== Sys2Proof/Machine/State.lean ====
section
/-! DEFINITION. The state of the core (spec/10_state R13 to R32), as plain data, and its value at reset (R32). -/

namespace Sys2Proof.Machine

/-- `status`, the state of the execute loop (R22). -/
inductive Status where
  /-- 0: the core has a step. -/
  | running
  /-- 1: the run ended with HALT. -/
  | haltedSuccess
  /-- 2: the run ended with a failure, whose reason is in the fault record. -/
  | haltedFailure
  deriving DecidableEq, Repr

/-- `fault_code`, which failure ended the run (R23, R111). -/
inductive FaultCode where
  /-- 0: no failure. -/
  | none
  /-- 1 -/
  | divisionByZero
  /-- 2 -/
  | invalidOpcode
  /-- 3 -/
  | truncatedStream
  /-- 4 -/
  | stackOverflow
  /-- 5 -/
  | stackUnderflow
  deriving DecidableEq, Repr

/-- The bytes of the one address space, the instruction stream (spec/20_memory R33), as address and byte pairs in one
canonical form: addresses strictly rising, no entry equal to what an unlisted offset reads as (`Memory.wf`). -/
abbrev Memory := List Host.Cell

/-- The whole state of the core (R13), and the stream the run is bound to (R27, R129). -/
structure State where
  /-- `x[1]`, r1 (R14). -/
  r1 : F64
  /-- `x[2]`, r2 (R14). -/
  r2 : F64
  /-- `pc` (R16): the offset of the opcode byte of the next instruction. -/
  pc : Offset
  /-- The values on the operand stack (R19), TOP FIRST: the head is `stk[sp-1]`, the last element `stk[0]`. `sp` (R20) is
  the length. Slots at or above `sp` are unspecified and never read (U7, D21), so there are none (log entry 3). -/
  stack : List F64
  /-- `status` (R22). -/
  status : Status
  /-- `fault_code` (R23). -/
  faultCode : FaultCode
  /-- `fault_pc` (R23). -/
  faultPc : Offset
  /-- `fault_byte` (R23). -/
  faultByte : Byte
  /-- `out` (R24): every value emitted since reset, oldest first. -/
  out : List F64
  /-- `S` (R5, R27): the bytes of the instruction stream; a parameter of the run, no step changes it (log entry 1). -/
  stream : Memory
  /-- `L` (R5, R27): the length of the stream in bytes; a parameter of the run, no step changes it (log entry 1). -/
  streamLen : Offset
  deriving DecidableEq, Repr

/-- Where a step stops without a next state. -/
inductive Fault where
  /-- STUCK. Raised by `step` when `status` is HaltedSuccess or HaltedFailure: "In either state the core has no step"
  (spec/70_reset R134, 93 U12). SAFE: the hardware does nothing there either, its state is frozen until reset. The five
  failures of the machine are NOT here: each is a next state (spec/60_exceptions R119). -/
  | halted
  deriving DecidableEq, Repr

/-- Where the model gives an instruction no meaning. -/
inductive Refusal where
  /-- The instruction of that mnemonic has no meaning in the model yet. Raised by `exec` only. SAFE: the model stops where
  the hardware goes on. No arm of `exec` raises it: all 23 instructions have their meaning. -/
  | notModelled (mnemonic : String)
  deriving DecidableEq, Repr

/-- The machine right after reset (R32), bound to a stream of no bytes: no program is placed here (log entry 1). -/
def State.reset : State where
  r1 := 0
  r2 := 0
  pc := 0
  stack := []
  status := .running
  faultCode := .none
  faultPc := 0
  faultByte := 0
  out := []
  stream := []
  streamLen := 0

end Sys2Proof.Machine
end

