-- ==== Sys2Proof/WellFormed.lean ====
section
/-! DEFINITION. What is checked of a term before it can stand in a run: an instruction, its place in a stream, a stream. -/

namespace Sys2Proof

/-- Every instruction is well-formed: "no operand value is illegal at decode: every `addr` and every `imm` is accepted"
(spec/30_encoding R56), and the operand widths (32 and 64 bits) are carried by the types. -/
def Instr.wellFormed : Instr → Bool := fun _ => true

/-- An instruction at offset `at0` of a stream of `len` bytes has all its bytes inside it: `pc0 + 1 + w <= L`
(spec/30_encoding R57, test (5)). -/
def Instr.fitsAt (i : Instr) (at0 len : Nat) : Bool := decide (at0 + instrLength i ≤ len)

/-- A stream may be bound to a run when its length is at most 2^32 - 1 (spec/00_scope R5, 93 U13: `refuse`). -/
def streamOk (len : Nat) : Bool := decide (len ≤ Config.maxStreamLen)

end Sys2Proof
end

