-- ==== Sys2Proof/Machine/Ops.lean ====
section
/-! DEFINITION. The named operations on the state: the instruction stream, the registers, the stack, the output port, the
program counter, the one shared `raise` (spec/60_exceptions R119) and reset (spec/70_reset R129). There is no return from a
failure (R121): reset is the only way out. -/

namespace Sys2Proof.Machine

/-! ## The instruction stream (spec/20_memory R33 to R42) -/

/-- What an offset with no entry holds. A stream gives every offset below L a byte; a listing that leaves the 0x00 bytes out
is one form for each stream (log entry 2). -/
def Memory.unlisted : Byte := 0

/-- The byte listed for offset `a`, or `Memory.unlisted`. -/
def Memory.get : Memory → Nat → Byte
  | [], _ => Memory.unlisted
  | (a', b) :: m, a => if a' = a then b else Memory.get m a

/-- The listing with byte `v` at offset `a`, in canonical form. -/
def Memory.set : Memory → Nat → Byte → Memory
  | [], a, v => if v = Memory.unlisted then [] else [(a, v)]
  | (a', b) :: m, a, v =>
    if a < a' then if v = Memory.unlisted then (a', b) :: m else (a, v) :: (a', b) :: m
    else if a = a' then if v = Memory.unlisted then m else (a, v) :: m
    else (a', b) :: Memory.set m a v

/-- The canonical form: addresses strictly rising, no entry equal to what an unlisted offset holds. -/
abbrev Memory.wf (m : Memory) : Prop :=
  m.Pairwise (fun p q => p.1 < q.1) ∧ ∀ p ∈ m, p.2 ≠ Memory.unlisted

/-- The listing with the bytes `bs` from offset `a` on. -/
def placeBytes : Memory → Nat → List Byte → Memory
  | m, _, [] => m
  | m, a, b :: bs => placeBytes (Memory.set m a b) (a + 1) bs

/-- The listing of a stream of bytes, the first at offset `a`. -/
def listBytes : Nat → List Byte → Memory
  | _, [] => []
  | a, b :: bs => if b = Memory.unlisted then listBytes (a + 1) bs else (a, b) :: listBytes (a + 1) bs

/-- The instruction read port (R29, R41): `S[a]` for an offset below L; nothing at or above it. A read has no effect. -/
def imemRead (s : State) (a : Nat) : Option Byte :=
  if a < s.streamLen.toNat then some (Memory.get s.stream a) else none

/-! ## The stack, the registers, the output port, the program counter -/

/-- `sp`, the number of values on the stack (R20). -/
def State.sp (s : State) : Nat := s.stack.length

/-- `sp` as the 9 bits that hold it (R20; parameter SP_WIDTH of R5). -/
def State.spBits (s : State) : BitVec Config.spWidth := BitVec.ofNat Config.spWidth s.sp

/-- `stk[i]` for a slot that holds a value, slot 0 the bottom (R19); none at or above `sp`. -/
def State.slot (s : State) (i : Nat) : Option F64 := s.stack.reverse[i]?

/-- The operand stack holds these values, top first. -/
def State.setStack (s : State) (st : List F64) : State := { s with stack := st }

/-- `stk[sp] <- v ; sp <- sp + 1` (R9, R20). -/
def State.push (s : State) (v : F64) : State := s.setStack (v :: s.stack)

/-- The two registers (R14). -/
inductive Reg where
  | r1
  | r2
  deriving DecidableEq, Repr

/-- `x[i]` for i from 1 to NREG (R8, R14), in order. -/
def Reg.all : List Reg := [.r1, .r2]

/-- `x[i]`, read (R8). -/
def State.getReg (s : State) : Reg → F64
  | .r1 => s.r1
  | .r2 => s.r2

/-- `x[i] <- v` (R8). -/
def State.setReg (s : State) (r : Reg) (v : F64) : State :=
  match r with
  | .r1 => { s with r1 := v }
  | .r2 => { s with r2 := v }

/-- `emit(v)` (R10, R24): one transfer on the output port. -/
def State.emit (s : State) (v : F64) : State := { s with out := s.out ++ [v] }

/-- `pc <- t` (R8). -/
def State.setPc (s : State) (t : Offset) : State := { s with pc := t }

/-- `pc <- pc0 + n`: the sequential advance (R17). No step makes it past L, so it never wraps in a run (R18). -/
def State.advance (s : State) (n : Offset) : State := s.setPc (s.pc + n)

/-- `status <- HaltedSuccess` (R64). -/
def State.haltSuccess (s : State) : State := { s with status := .haltedSuccess }

/-! ## Failures (spec/60_exceptions R111, R119) -/

/-- The five failures (R111), with what each records beside the pc. -/
inductive Failure where
  | divisionByZero
  | invalidOpcode (op : Byte)
  | truncatedStream
  | stackOverflow
  | stackUnderflow
  deriving DecidableEq, Repr

/-- "code of F" (R119, R111). -/
def failureCode : Failure → FaultCode
  | .divisionByZero => .divisionByZero
  | .invalidOpcode _ => .invalidOpcode
  | .truncatedStream => .truncatedStream
  | .stackOverflow => .stackOverflow
  | .stackUnderflow => .stackUnderflow

/-- "the opcode byte if F = InvalidOpcode, else 0" (R119). -/
def failureByte : Failure → Byte
  | .invalidOpcode op => op
  | _ => 0

/-- `raise F`, the whole of "trap entry" (R119): status and the fault record, nothing else. `s.pc` is pc0, the offset of the
opcode byte, since a meaning raises before it writes anything (R120). -/
def State.raise (s : State) (f : Failure) : State :=
  { s with
    status := .haltedFailure
    faultCode := failureCode f
    faultPc := s.pc
    faultByte := failureByte f }

/-! ## Reset (spec/70_reset R129, R131; spec/10_state R32) -/

/-- Reset, from any state: every piece of state at its reset value, the run bound to the stream presented. -/
def State.resetWith (_ : State) (m : Memory) (len : Offset) : State :=
  { State.reset with stream := m, streamLen := len }

/-- `create(stream)`: the stream placed, then reset. A stream of 2^32 bytes or more is refused (U13). -/
def create (bytes : List Byte) : Option State :=
  if streamOk bytes.length then some (State.reset.resetWith (listBytes 0 bytes) (BitVec.ofNat Config.pcWidth bytes.length)) else none

end Sys2Proof.Machine
end

