-- ==== Sys2Proof/Machine/Operands.lean ====
section
/-! DEFINITION. The operand forms: how an instruction takes its operands and where its result goes. Each form makes its
capacity test first (spec/00_scope R9, "need" and "room"), so a failing instruction changes nothing but status and the fault
record (spec/60_exceptions R120). -/

namespace Sys2Proof.Machine

/-- One push of `v` by an instruction of `len` bytes (spec/41_constants template; R101, R103): `room(1, 0)`, else
StackOverflow. -/
def pushForm (v : F64) (len : Offset) (s : State) : State :=
  if Config.stackCapacity < s.sp + 1 then s.raise .stackOverflow else (s.push v).advance len

/-- One pop, the value handed to `use` (R100, R102, R106): `need(1)`, else StackUnderflow. -/
def popForm (use : State → F64 → State) (s : State) : State :=
  match s.stack with
  | [] => s.raise .stackUnderflow
  | v :: rest => (use (s.setStack rest) v).advance 1

/-- The top of the stack replaced by `f` of it (R96): `need(1)`, else StackUnderflow. -/
def unaryForm (f : F64 → F64) (s : State) : State :=
  match s.stack with
  | [] => s.raise .stackUnderflow
  | a :: rest => (s.setStack (f a :: rest)).advance 1

/-- The template of the binary instructions (spec/43_arithmetic section 2): `need(2)`, else StackUnderflow; then the
instruction's own test of `b`, the top; then `op a b` in the place of both (R91). -/
def binaryForm (test : F64 → Option Failure) (op : F64 → F64 → F64) (s : State) : State :=
  match s.stack with
  | b :: a :: rest =>
    match test b with
    | some f => s.raise f
    | none => (s.setStack (op a b :: rest)).advance 1
  | _ => s.raise .stackUnderflow

/-- The template of the six jumps (R76): `rel(x[1], x[2])` taken to `addr`, else past the 4 operand bytes. -/
def jumpForm (rel : F64 → F64 → Bool) (addr : Offset) (s : State) : State :=
  if rel (s.getReg .r1) (s.getReg .r2) then s.setPc addr else s.advance 5

end Sys2Proof.Machine
end

