-- ==== Sys2Proof/Machine/Arithmetic.lean ====
section
/-! DEFINITION. ADD, SUB, MUL, DIV, NEG (spec/43_arithmetic R91 to R96, R99). -/

namespace Sys2Proof.Machine

/-- No test of the divisor: ADD, SUB, MUL. -/
def noTest (_ : F64) : Option Failure := none

/-- DIV's own test of the divisor (R95, R112, D22): IEEE equality with +0.0, so +0.0 and -0.0 fail and a NaN does not. -/
def zeroTest (b : F64) : Option Failure := if f64Eq b 0x0000000000000000 then some .divisionByZero else none

/-- ADD (R92). -/
def execAdd (s : State) : Host.Outcome State Fault Refusal := .next (binaryForm noTest numerics.add s)

/-- SUB (R93). -/
def execSub (s : State) : Host.Outcome State Fault Refusal := .next (binaryForm noTest numerics.sub s)

/-- MUL (R94). -/
def execMul (s : State) : Host.Outcome State Fault Refusal := .next (binaryForm noTest numerics.mul s)

/-- DIV (R95). -/
def execDiv (s : State) : Host.Outcome State Fault Refusal := .next (binaryForm zeroTest numerics.div s)

/-- NEG (R96). -/
def execNeg (s : State) : Host.Outcome State Fault Refusal := .next (unaryForm f64Neg s)

end Sys2Proof.Machine
end

