-- ==== Sys2Proof/Machine/Constants.lean ====
section
/-! DEFINITION. The constant pushes (spec/41_constants R67 to R72). A push moves bits: nothing is rounded or quieted (R72). -/

namespace Sys2Proof.Machine

/-- DCONST_M1 (R67): push -1.0. -/
def execDconstM1 (s : State) : Host.Outcome State Fault Refusal := .next (pushForm 0xBFF0000000000000 1 s)

/-- DCONST_0 (R68): push +0.0. -/
def execDconst0 (s : State) : Host.Outcome State Fault Refusal := .next (pushForm 0x0000000000000000 1 s)

/-- DCONST_1 (R69): push 1.0. -/
def execDconst1 (s : State) : Host.Outcome State Fault Refusal := .next (pushForm 0x3FF0000000000000 1 s)

/-- DCONST_2 (R70): push 2.0. -/
def execDconst2 (s : State) : Host.Outcome State Fault Refusal := .next (pushForm 0x4000000000000000 1 s)

/-- DCONST imm (R71): push the immediate, 9 bytes. -/
def execDconst (imm : F64) (s : State) : Host.Outcome State Fault Refusal := .next (pushForm imm 9 s)

end Sys2Proof.Machine
end

