-- ==== Sys2Proof/Machine/HaltNop.lean ====
section
/-! DEFINITION. HALT and NOP (spec/40_halt_nop R64 to R66). -/

namespace Sys2Proof.Machine

/-- HALT (R64): `pc <- pc0 + 1 ; status <- HaltedSuccess`. -/
def execHalt (s : State) : Host.Outcome State Fault Refusal := .next (s.advance 1).haltSuccess

/-- NOP (R65): `pc <- pc0 + 1`. -/
def execNop (s : State) : Host.Outcome State Fault Refusal := .next (s.advance 1)

end Sys2Proof.Machine
end

