-- ==== Sys2Proof/Machine/Jumps.lean ====
section
/-! DEFINITION. The six conditional absolute jumps (spec/42_jumps R76 to R83): r1 on the left, r2 on the right. The target is
not checked (R83). -/

namespace Sys2Proof.Machine

/-- JEQ (R77). -/
def execJeq (addr : Offset) (s : State) : Host.Outcome State Fault Refusal := .next (jumpForm f64Eq addr s)

/-- JNE (R78). -/
def execJne (addr : Offset) (s : State) : Host.Outcome State Fault Refusal := .next (jumpForm f64Ne addr s)

/-- JLT (R79). -/
def execJlt (addr : Offset) (s : State) : Host.Outcome State Fault Refusal := .next (jumpForm f64Lt addr s)

/-- JLE (R80). -/
def execJle (addr : Offset) (s : State) : Host.Outcome State Fault Refusal := .next (jumpForm f64Le addr s)

/-- JGT (R81). -/
def execJgt (addr : Offset) (s : State) : Host.Outcome State Fault Refusal := .next (jumpForm f64Gt addr s)

/-- JGE (R82). -/
def execJge (addr : Offset) (s : State) : Host.Outcome State Fault Refusal := .next (jumpForm f64Ge addr s)

end Sys2Proof.Machine
end

