-- ==== Sys2Proof/Machine/Print.lean ====
section
/-! DEFINITION. PRINT (spec/45_print R106, R107, R110). -/

namespace Sys2Proof.Machine

/-- PRINT (R106): pop the top of the stack and emit it, bit for bit. -/
def execPrint (s : State) : Host.Outcome State Fault Refusal := .next (popForm (fun t v => t.emit v) s)

end Sys2Proof.Machine
end

