-- ==== Sys2Proof/Machine/Transfer.lean ====
section
/-! DEFINITION. ST1, LD1, ST2, LD2 (spec/44_register_transfer R100 to R105). A transfer moves bits (R104). -/

namespace Sys2Proof.Machine

/-- ST1 (R100): pop into r1. -/
def execSt1 (s : State) : Host.Outcome State Fault Refusal := .next (popForm (fun t v => t.setReg .r1 v) s)

/-- LD1 (R101): push r1. -/
def execLd1 (s : State) : Host.Outcome State Fault Refusal := .next (pushForm (s.getReg .r1) 1 s)

/-- ST2 (R102): pop into r2. -/
def execSt2 (s : State) : Host.Outcome State Fault Refusal := .next (popForm (fun t v => t.setReg .r2 v) s)

/-- LD2 (R103): push r2. -/
def execLd2 (s : State) : Host.Outcome State Fault Refusal := .next (pushForm (s.getReg .r2) 1 s)

end Sys2Proof.Machine
end

