-- ==== Sys2Proof/Machine/Dispatch.lean ====
section
/-! DEFINITION. Step (7) of spec/30_encoding R57: one arm for each instruction. -/

namespace Sys2Proof.Machine

/-- The meaning of an instruction in a state whose `pc` is the offset of its opcode byte. -/
def exec (i : Instr) (s : State) : Host.Outcome State Fault Refusal :=
  match i with
  | .halt => Sys2Proof.Machine.execHalt s
  | .dconstM1 => Sys2Proof.Machine.execDconstM1 s
  | .dconst0 => Sys2Proof.Machine.execDconst0 s
  | .dconst1 => Sys2Proof.Machine.execDconst1 s
  | .dconst2 => Sys2Proof.Machine.execDconst2 s
  | .dconst imm => Sys2Proof.Machine.execDconst imm s
  | .jeq addr => Sys2Proof.Machine.execJeq addr s
  | .jne addr => Sys2Proof.Machine.execJne addr s
  | .jlt addr => Sys2Proof.Machine.execJlt addr s
  | .jle addr => Sys2Proof.Machine.execJle addr s
  | .jgt addr => Sys2Proof.Machine.execJgt addr s
  | .jge addr => Sys2Proof.Machine.execJge addr s
  | .add => Sys2Proof.Machine.execAdd s
  | .sub => Sys2Proof.Machine.execSub s
  | .mul => Sys2Proof.Machine.execMul s
  | .div => Sys2Proof.Machine.execDiv s
  | .neg => Sys2Proof.Machine.execNeg s
  | .nop => Sys2Proof.Machine.execNop s
  | .print => Sys2Proof.Machine.execPrint s
  | .st1 => Sys2Proof.Machine.execSt1 s
  | .ld1 => Sys2Proof.Machine.execLd1 s
  | .st2 => Sys2Proof.Machine.execSt2 s
  | .ld2 => Sys2Proof.Machine.execLd2 s

end Sys2Proof.Machine
end

