-- ==== Sys2Proof/Machine/Fetch.lean ====
section
/-! DEFINITION. Steps (1) to (6) of spec/30_encoding R57: fetching and decoding the instruction at `pc`; and placing an
instruction there. -/

namespace Sys2Proof.Machine

/-- "It is defined only when `status = Running`" (R57, R134). -/
def hasStep (s : State) : Bool :=
  match s.status with
  | .running => true
  | .haltedSuccess => false
  | .haltedFailure => false

/-- The bytes of the stream from `pc` on, as many as the longest instruction has and the stream holds (R41: only offsets
below L are read; a read has no side effect, R40). -/
def fetchBytes (s : State) : List Byte :=
  (List.range maxInstrBytes).filterMap fun k => imemRead s (s.pc.toNat + k)

/-- What the fetch gives: an instruction to execute, or the failure the step raises. -/
inductive Fetched where
  | run (i : Instr)
  | fail (f : Failure)
  deriving DecidableEq, Repr

/-- The fetch and decode of one step (R57, tests (1), (3), (5)). -/
def fetch (s : State) : Fetched :=
  match decode (fetchBytes s) with
  | .instr i _ => .run i
  | .noOpcode => .fail .truncatedStream
  | .illegalOpcode op => .fail (.invalidOpcode op)
  | .truncatedOperand => .fail .truncatedStream

/-- `s` with the bytes `bs` standing in the stream from `pc` on and the core ready to step: the stream is as long as the
bytes need (and never longer than 2^32 - 1), the status is Running and the fault record clear. What the tool behind
`withFetchWord` does; no transition of the hardware (log entry 6). -/
def placeAtPc (s : State) (bs : List Byte) : State :=
  { s with
    stream := placeBytes s.stream s.pc.toNat (bs.take (Config.maxStreamLen - s.pc.toNat))
    streamLen := BitVec.ofNat Config.pcWidth (max s.streamLen.toNat (min (s.pc.toNat + bs.length) Config.maxStreamLen))
    status := .running
    faultCode := .none
    faultPc := 0
    faultByte := 0 }

end Sys2Proof.Machine
end

