-- ==== Sys2Proof/Machine/Step.lean ====
section
/-! DEFINITION. One step of the core (spec/30_encoding R57): fetch, decode, execute, atomically. -/

namespace Sys2Proof.Machine

/-- The step: a core that is not Running has none (R134); a failure of the fetch is raised (R119), an instruction is
executed. -/
def step (s : State) : Host.Outcome State Fault Refusal :=
  match hasStep s with
  | false => .fault .halted
  | true =>
    match fetch s with
    | .fail f => .next (s.raise f)
    | .run i => exec i s

/-- `s` with the instruction whose bits are `w` (numbered as `decodeTableWord` says) standing at `pc`, so that the next step
runs it. -/
def State.withFetchWord (s : State) (nbits w : Nat) : State :=
  placeAtPc s (tableBytes nbits w)

end Sys2Proof.Machine
end

