-- ==== Sys2Proof/Machine/Ports.lean ====
section
/-! DEFINITION. What the host sees of the core: the control and result port (spec/10_state R22, R23, R31; spec/60_exceptions
R111) and the output port (R30). -/

namespace Sys2Proof.Machine

/-- `status` as 2 bits (R22); 3 is never produced. -/
def statusBits : Status → BitVec 2
  | .running => 0
  | .haltedSuccess => 1
  | .haltedFailure => 2

/-- `fault_code` as 3 bits (R23, R111); 6 and 7 are never produced. -/
def faultCodeBits : FaultCode → BitVec 3
  | .none => 0
  | .divisionByZero => 1
  | .invalidOpcode => 2
  | .truncatedStream => 3
  | .stackOverflow => 4
  | .stackUnderflow => 5

/-- The outputs of the control and result port (R31). -/
structure ResultPort where
  status : BitVec 2
  faultCode : BitVec 3
  faultPc : Offset
  faultByte : Byte
  deriving DecidableEq, Repr

/-- What the host reads on the result port, at any time (R31). -/
def resultPort (s : State) : ResultPort where
  status := statusBits s.status
  faultCode := faultCodeBits s.faultCode
  faultPc := s.faultPc
  faultByte := s.faultByte

/-- AM's ExecutionResult with the three variants it recommends (R31, spec/90_conflicts C4). -/
inductive ExecutionResult where
  | success
  | divisionByZero (pc : Offset)
  | invalidOpcode (op : Byte) (pc : Offset)
  | truncatedStream (pc : Offset)
  | stackOverflow (pc : Offset)
  | stackUnderflow (pc : Offset)
  deriving DecidableEq, Repr

/-- The result of a HaltedFailure, from its code (R31). No reachable HaltedFailure has the code none (R23). -/
def failureResult (s : State) : Option ExecutionResult :=
  match s.faultCode with
  | .none => none
  | .divisionByZero => some (.divisionByZero s.faultPc)
  | .invalidOpcode => some (.invalidOpcode s.faultByte s.faultPc)
  | .truncatedStream => some (.truncatedStream s.faultPc)
  | .stackOverflow => some (.stackOverflow s.faultPc)
  | .stackUnderflow => some (.stackUnderflow s.faultPc)

/-- The mapping of the result port to AM's result (R31); none while Running. -/
def executionResult (s : State) : Option ExecutionResult :=
  match s.status with
  | .running => none
  | .haltedSuccess => some .success
  | .haltedFailure => failureResult s

/-- The transfer on the output port between two states, `out_valid` and `out_data` in one (R30): the values emitted. -/
def transfers (before after : State) : List F64 := after.out.drop before.out.length

end Sys2Proof.Machine
end

