-- ==== Sys2Proof/Machine/Run.lean ====
section
/-! DEFINITION. The host's `run` (spec/70_reset R133), under a budget of steps (R136), since a run need not end (R135). -/

namespace Sys2Proof.Machine

/-- The repetition of the step until `status != Running`, at most `budget` times: a halted core performs no step (R133), and
a host that stops early leaves the core at an instruction boundary (R136). -/
def runFor : Nat → State → State
  | 0, s => s
  | budget + 1, s =>
    match step s with
    | .next t => runFor budget t
    | .fault _ => s
    | .refused _ => s

end Sys2Proof.Machine
end

