-- ==== Sys2Proof/Machine/Sink.lean ====
section
/-! DEFINITION. The text the sink makes of a value (spec/45_print R108, R109): fixed point, six digits after the point, the
exact value rounded with ties to the even last digit. It stands on the sink's side of the output port; no step uses it. -/

namespace Sys2Proof.Machine

/-- The decimal digit `d`. -/
def digitChar (d : Nat) : Char := Char.ofNat (48 + d)

/-- The decimal digits of `n` before those of `acc`; `fuel` bounds their number. -/
def digitsFrom : Nat → Nat → List Char → List Char
  | 0, _, acc => acc
  | fuel + 1, n, acc =>
    if n < 10 then digitChar n :: acc else digitsFrom fuel (n / 10) (digitChar (n % 10) :: acc)

/-- `intpart` (R108): no leading zeros, at least one digit. A number has at most as many decimal digits as binary ones. -/
def intDigits (n : Nat) : List Char := digitsFrom (n.log2 + 1) n []

/-- `frac` (R108): exactly six digits of `f`, which is below 10^6. -/
def fracDigits (f : Nat) : List Char :=
  [digitChar (f / 100000 % 10), digitChar (f / 10000 % 10), digitChar (f / 1000 % 10),
   digitChar (f / 100 % 10), digitChar (f / 10 % 10), digitChar (f % 10)]

/-- `m` of R108 in millionths: the exact decimal value of `units` x 2^-1074, rounded to 6 digits, ties to even. -/
def millionths (units : Nat) : Nat := roundHalfEven (units * 10 ^ 6) (2 ^ 1074)

/-- `fmt6` (R108). The text of an infinity or a NaN is the sink's parameter `fmt_special` (R109). -/
def fmt6 (v : F64) : List Char :=
  match classify v with
  | .finite neg units =>
    (if neg then ['-'] else []) ++ intDigits (millionths units / 10 ^ 6) ++ ['.'] ++ fracDigits (millionths units % 10 ^ 6)
  | .inf _ => Config.fmtSpecial v
  | .nan => Config.fmtSpecial v

/-- The text of an output trace: the texts of its values, `print_separator` between two (R109). -/
def sinkText : List F64 → List Char
  | [] => []
  | [v] => fmt6 v
  | v :: w :: vs => fmt6 v ++ Config.printSeparator ++ sinkText (w :: vs)

end Sys2Proof.Machine
end

