-- ==== Sys2Proof/Safety.lean ====
section
/-! DEFINITION. What counts as a good state and a good run, in the terms the claims use. -/

namespace Sys2Proof.Machine

/-- The stack holds at most STACK_CAPACITY values (spec/10_state R20). -/
abbrev DepthOk (s : State) : Prop := s.sp ≤ Config.stackCapacity

/-- The stream is one plain datum for each pair of S and L: canonical, nothing listed at or above L (log entry 2). -/
abbrev StreamOk (s : State) : Prop := Memory.wf s.stream ∧ ∀ p ∈ s.stream, p.1 < s.streamLen.toNat

/-- The fault record (R23): a failure is recorded exactly in HaltedFailure; cleared fields are 0; only InvalidOpcode records
a byte; the pc recorded is the pc the core is frozen at (spec/60_exceptions R120). -/
abbrev RecordOk (s : State) : Prop :=
  (s.status = .haltedFailure ↔ s.faultCode ≠ .none) ∧
  (s.faultCode = .none → s.faultPc = 0) ∧
  (s.faultCode ≠ .invalidOpcode → s.faultByte = 0) ∧
  (s.status = .haltedFailure → s.pc = s.faultPc)

/-- Where a run can have ended in success: one past an opcode byte of HALT (spec/70_reset R134). -/
abbrev HaltOk (s : State) : Prop :=
  s.status = .haltedSuccess → 0 < s.pc.toNat ∧ imemRead s (s.pc.toNat - 1) = some (opcodeOf .halt)

/-- The invariant of the machine: every reachable state meets it and every step keeps it. -/
abbrev Inv (s : State) : Prop := DepthOk s ∧ StreamOk s ∧ RecordOk s ∧ HaltOk s

/-- The top of the stack is a zero, with a value below it (spec/60_exceptions R112). -/
def zeroOnTop (s : State) : Bool :=
  match s.stack with
  | b :: _ :: _ => isZero b
  | _ => false

/-- The opcode byte at `a` is one of `ops`. -/
def opcodeAtIn (s : State) (a : Nat) (ops : List Byte) : Bool :=
  match imemRead s a with
  | some op => ops.contains op
  | none => false

/-- The seven instructions that push without popping (spec/60_exceptions R111, R115), by opcode. -/
def pushingOpcodes : List Byte := [0x0A, 0x0B, 0x0C, 0x0D, 0x0F, 0xF5, 0xF7]

/-- The four instructions that need two values (R116), by opcode. -/
def binaryOpcodes : List Byte := [0x60, 0x61, 0x62, 0x64]

/-- The four instructions that need one value (R116), by opcode. -/
def poppingOpcodes : List Byte := [0x70, 0xF4, 0xF6, 0xF2]

/-- The instructions with operand bytes (R114), by opcode. -/
def operandOpcodes : List Byte := [0x0F, 0x10, 0x11, 0x12, 0x13, 0x14, 0x15]

/-- What each failure says of the state it is raised in (spec/60_exceptions R112 to R116): the state still shows its cause,
because a failing instruction changes nothing (R120). -/
def CauseOf (f : FaultCode) (s : State) : Prop :=
  match f with
  | .none => True
  | .divisionByZero => opcodeAtIn s s.faultPc.toNat [0x64] = true ∧ zeroOnTop s = true
  | .invalidOpcode => imemRead s s.faultPc.toNat = some s.faultByte ∧ opcodeForm s.faultByte = none
  | .truncatedStream =>
    s.streamLen.toNat ≤ s.faultPc.toNat ∨
    ∃ op w, imemRead s s.faultPc.toNat = some op ∧ operandWidth op = some w ∧
      s.streamLen.toNat < s.faultPc.toNat + 1 + w
  | .stackOverflow =>
    opcodeAtIn s s.faultPc.toNat pushingOpcodes = true ∧ Config.stackCapacity ≤ s.sp
  | .stackUnderflow =>
    (opcodeAtIn s s.faultPc.toNat binaryOpcodes = true ∧ s.sp < 2) ∨
    (opcodeAtIn s s.faultPc.toNat poppingOpcodes = true ∧ s.sp = 0)

/-- The states a run can be in (spec/70_reset R129 to R133): reset with a stream of at most 2^32 - 1 bytes, then steps. -/
inductive Reachable : State → Prop where
  | boot (bytes : List Byte) (s : State) : create bytes = some s → Reachable s
  | step (s t : State) : Reachable s → Sys2Proof.Machine.step s = .next t → Reachable t

/-- A safe state: the run has not failed. -/
abbrev Safe (s : State) : Prop := s.status ≠ .haltedFailure

/-! ## Terms of the statements about instructions -/

/-- `s` after `raise` of the failure of code `c`, the byte recorded being `op` (spec/60_exceptions R119): status and the
fault record written, nothing else. -/
def afterFailure (s : State) (c : FaultCode) (op : Byte) : State :=
  { s with status := .haltedFailure, faultCode := c, faultPc := s.pc, faultByte := op }

/-- The instruction `i` stands in the stream at `pc`: each of its bytes is read there (spec/30_encoding R50). -/
def InstrAt (s : State) (i : Instr) : Prop :=
  ∀ k, k < instrLength i → imemRead s (s.pc.toNat + k) = (encode i)[k]?

/-- The target of `i` in `s`, where `i` is a jump whose relation holds between r1 and r2 (spec/42_jumps R76). -/
def jumpTaken (i : Instr) (s : State) : Option Offset :=
  match i with
  | .jeq a => if f64Eq s.r1 s.r2 then some a else none
  | .jne a => if f64Ne s.r1 s.r2 then some a else none
  | .jlt a => if f64Lt s.r1 s.r2 then some a else none
  | .jle a => if f64Le s.r1 s.r2 then some a else none
  | .jgt a => if f64Gt s.r1 s.r2 then some a else none
  | .jge a => if f64Ge s.r1 s.r2 then some a else none
  | .halt | .dconstM1 | .dconst0 | .dconst1 | .dconst2 | .dconst _ | .add | .sub | .mul | .div | .neg | .nop | .print
  | .st1 | .ld1 | .st2 | .ld2 => none

/-- The six jumps, the instructions that read both registers (spec/10_state R15). -/
def readsBoth : Instr → Bool
  | .jeq _ | .jne _ | .jlt _ | .jle _ | .jgt _ | .jge _ => true
  | .halt | .dconstM1 | .dconst0 | .dconst1 | .dconst2 | .dconst _ | .add | .sub | .mul | .div | .neg | .nop | .print
  | .st1 | .ld1 | .st2 | .ld2 => false

/-- The eight instructions that neither push nor pop (spec/90_conflicts C7). -/
def leavesStack : Instr → Bool
  | .halt | .nop | .jeq _ | .jne _ | .jlt _ | .jle _ | .jgt _ | .jge _ => true
  | .dconstM1 | .dconst0 | .dconst1 | .dconst2 | .dconst _ | .add | .sub | .mul | .div | .neg | .print
  | .st1 | .ld1 | .st2 | .ld2 => false

/-- The 233 illegal opcode bytes, by the ranges of spec/30_encoding R55. -/
def isIllegalByte (op : Byte) : Bool :=
  let n := op.toNat
  (decide (0x01 ≤ n) && decide (n ≤ 0x09)) || n == 0x0E || (decide (0x16 ≤ n) && decide (n ≤ 0x5F)) || n == 0x63 ||
  (decide (0x65 ≤ n) && decide (n ≤ 0x6F)) || (decide (0x71 ≤ n) && decide (n ≤ 0xEF)) || n == 0xF1 || n == 0xF3 ||
  decide (0xF8 ≤ n)

/-- The sixteen opcodes of format Z (spec/30_encoding R51). -/
def zOpcodes : List Byte :=
  [0x00, 0x0A, 0x0B, 0x0C, 0x0D, 0x60, 0x61, 0x62, 0x64, 0x70, 0xF0, 0xF2, 0xF4, 0xF5, 0xF6, 0xF7]

/-- The six opcodes of format J (R51). -/
def jOpcodes : List Byte := [0x10, 0x11, 0x12, 0x13, 0x14, 0x15]

/-! ## Values, for the numeric laws (spec/00_scope R7; spec/43_arithmetic R84) -/

/-- A finite pattern: neither an infinity nor a NaN. -/
def isFinite (v : F64) : Bool := !isNaN v && !isInf v

/-- The real value of a finite pattern, a rational: (-1)^sign x units x 2^-1074. -/
def value (v : F64) : ℚ :=
  (signed (signBit v) (finiteUnits (expField v).toNat (fracField v).toNat) : ℚ) / 2 ^ 1074

/-- The magnitude from which rounding to nearest gives an infinity: half a step past the largest finite value. -/
def overflowFrom : ℚ := 2 ^ 1024 - 2 ^ 970

/-- `r` is the rational `x`, not 0, rounded to nearest, ties to the value whose fraction bit 0 is 0, the sign of `x` kept
even by a zero, an infinity past the largest finite value (R84). -/
def RoundsTo (x : ℚ) (r : F64) : Prop :=
  signBit r = decide (x < 0) ∧
  (overflowFrom ≤ |x| → isInf r = true) ∧
  (|x| < overflowFrom → isFinite r = true ∧
    ∀ c : F64, isFinite c = true →
      |x - value r| ≤ |x - value c| ∧
      (|x - value r| = |x - value c| → value c ≠ value r → r.getLsbD 0 = false))

/-! ## Text (spec/45_print R108) -/

/-- A decimal digit. -/
def isDigitChar (c : Char) : Bool := decide (48 ≤ c.toNat) && decide (c.toNat ≤ 57)

/-- The number a list of decimal digits writes. -/
def digitsValue (cs : List Char) : Nat := cs.foldl (fun acc c => 10 * acc + (c.toNat - 48)) 0

end Sys2Proof.Machine
end

