-- ==== Sys2Proof/Certificates/Slice0/Obligations.lean ====
section
/-! DEFINITION. The statements about the machine, from the numbered rules of spec/. `afterFailure`, `InstrAt`, `Inv`, `RoundsTo`
and the other terms they use are defined in Sys2Proof/Safety.lean. -/

open Sys2Proof Sys2Proof.Machine

/-! ## Reset, the host, the stream -/

/-- R32: the value of every piece of state after reset (the stream the state is bound to is none of them and not stated
here). That the zeros are +0.0 and the fault record's numbers are the spec's decisions D23 and D10. -/
def Obligations.ResetValues : Prop :=
  State.reset.pc = 0 ∧ State.reset.sp = 0 ∧ State.reset.r1 = 0x0000000000000000 ∧
  State.reset.r2 = 0x0000000000000000 ∧ State.reset.status = .running ∧ State.reset.faultCode = .none ∧
  State.reset.faultPc = 0 ∧ State.reset.faultByte = 0 ∧ State.reset.out = []

/-- R129, R130: reset, from any state whatever, leaves every piece of state at the value of R32 and binds the stream
presented; a halted core gets to Running by no step; with no bytes the first step fails with TruncatedStream at offset
0. It rests on the spec's decisions D23 and D10 and on the model's form of the stream (log entry 1). -/
def Obligations.ResetFromAnyState : Prop :=
  (∀ (s : State) (m : Memory) (len : Offset),
    let t := s.resetWith m len
    t.pc = 0 ∧ t.stack = [] ∧ t.r1 = 0 ∧ t.r2 = 0 ∧ t.status = .running ∧ t.faultCode = .none ∧ t.faultPc = 0 ∧
    t.faultByte = 0 ∧ t.out = [] ∧ t.stream = m ∧ t.streamLen = len ∧
    (len = 0 → step t = .next (afterFailure t .truncatedStream 0))) ∧
  ∀ s t : State, s.status ≠ .running → step s ≠ .next t

/-- R29, R129, U13: a stream of at most 2^32 - 1 bytes is bound as presented, byte for byte, with nothing at or above its
length; a longer one is refused. The bound is the spec's decision D5; the form of the stream is the model's choice,
log entries 1 and 2. -/
def Obligations.CreateBindsTheStream : Prop :=
  ∀ bytes : List Byte,
    (2 ^ 32 ≤ bytes.length → create bytes = none) ∧
    (bytes.length < 2 ^ 32 → ∃ s, create bytes = some s ∧ s.streamLen.toNat = bytes.length ∧
      (∀ a, imemRead s a = bytes[a]?) ∧
      { s with stream := [], streamLen := 0 } = State.reset)

/-- R35: no step changes the stream or its length; every read returns what it returned before. -/
def Obligations.StepKeepsTheStream : Prop :=
  ∀ s t : State, step s = .next t →
    t.streamLen = s.streamLen ∧ ∀ a, imemRead t a = imemRead s a

/-- R35, R40: no instruction stores to the stream: every byte of memory reads as before, listed or not. -/
def Obligations.ExecStoresNothing : Prop :=
  ∀ (i : Instr) (s t : State), exec i s = .next t →
    t.streamLen = s.streamLen ∧ ∀ a, Memory.get t.stream a = Memory.get s.stream a

/-! ## Encoding -/

/-- R49 to R54: decoding the encoding of any well-formed instruction, whatever bytes follow it, gives that instruction and
those bytes: no bit of an operand is dropped. The pairing of the jumps and the order of a constant's bytes are the
spec's decisions D1 and D2. -/
def Obligations.DecodeOfEncode : Prop :=
  ∀ (i : Instr) (rest : List Byte), i.wellFormed = true → decode (encode i ++ rest) = .instr i rest

/-- The other direction: what the decoder accepts is exactly the encoding of what it answers. It rests on the spec's
decisions D1 and D2. -/
def Obligations.EncodeOfDecode : Prop :=
  ∀ (bytes rest : List Byte) (i : Instr), decode bytes = .instr i rest → bytes = encode i ++ rest

/-- Words written out from the spec (R52, R53, R54 and the examples there), one or more of each family. It rests on the
spec's decisions D1 and D2. -/
def Obligations.SpecWordsDecode : Prop :=
  decode [0x00] = .instr .halt [] ∧
  decode [0xF0, 0x00] = .instr .nop [0x00] ∧
  decode [0x0A] = .instr .dconstM1 [] ∧
  decode [0x0F, 0x40, 0x59, 0x00, 0x00, 0x00, 0x00, 0x00, 0x00] = .instr (.dconst 0x4059000000000000) [] ∧
  decode [0x14, 0x00, 0x00, 0x00, 0x06] = .instr (.jgt 6) [] ∧
  decode [0x10, 0x00, 0x01, 0x02, 0x03] = .instr (.jeq 66051) [] ∧
  decode [0x61] = .instr .sub [] ∧
  decode [0x70] = .instr .neg [] ∧
  decode [0xF4, 0xF5] = .instr .st1 [0xF5] ∧
  decode [0xF7] = .instr .ld2 [] ∧
  decode [0xF2] = .instr .print [] ∧
  decode [0x63] = .illegalOpcode 0x63

/-- R51: the operand width is a function of the opcode byte alone, with the values of its table; the decoder skips exactly
that many bytes. -/
def Obligations.OperandWidths : Prop :=
  (∀ op : Byte, operandWidth op =
    if op = 0x0F then some 8 else if op ∈ jOpcodes then some 4 else if op ∈ zOpcodes then some 0 else none) ∧
  (∀ (op : Byte) (bytes rest : List Byte) (i : Instr), decode (op :: bytes) = .instr i rest →
    ∃ w, operandWidth op = some w ∧ instrLength i = 1 + w ∧ rest = bytes.drop w)

/-- R36, R53: the jump operand is the unsigned 32-bit number whose most significant byte comes first, used as it stands,
for each of the six jumps. -/
def Obligations.JumpOperandBigEndian : Prop :=
  ∀ (b0 b1 b2 b3 : Byte) (rest : List Byte), ∃ addr : Offset,
    addr.toNat = b0.toNat * 2 ^ 24 + b1.toNat * 2 ^ 16 + b2.toNat * 2 ^ 8 + b3.toNat ∧
    ∀ i ∈ [Instr.jeq addr, .jne addr, .jlt addr, .jle addr, .jgt addr, .jge addr],
      decode (opcodeOf i :: b0 :: b1 :: b2 :: b3 :: rest) = .instr i rest

/-- R54: the double operand is the 64-bit pattern whose most significant byte comes first; every pattern is accepted and
none is changed. The byte order is the spec's decision D2, that every pattern is kept its decision D16. -/
def Obligations.DoubleOperandBigEndian : Prop :=
  ∀ (b0 b1 b2 b3 b4 b5 b6 b7 : Byte) (rest : List Byte), ∃ imm : F64,
    imm.toNat = b0.toNat * 2 ^ 56 + b1.toNat * 2 ^ 48 + b2.toNat * 2 ^ 40 + b3.toNat * 2 ^ 32 +
      b4.toNat * 2 ^ 24 + b5.toNat * 2 ^ 16 + b6.toNat * 2 ^ 8 + b7.toNat ∧
    decode (0x0F :: b0 :: b1 :: b2 :: b3 :: b4 :: b5 :: b6 :: b7 :: rest) = .instr (.dconst imm) rest

/-- R55: exactly the 233 bytes of the listed ranges are no opcode, they have no operand width, and executing one is
InvalidOpcode with that byte and the offset it was fetched from. -/
def Obligations.IllegalBytesFail : Prop :=
  (∀ op : Byte, opcodeForm op = none ↔ isIllegalByte op = true) ∧
  ((List.range 256).filter fun n => isIllegalByte (BitVec.ofNat 8 n)).length = 233 ∧
  (∀ op : Byte, isIllegalByte op = true → operandWidth op = none) ∧
  ∀ (s : State) (op : Byte), s.status = .running → imemRead s s.pc.toNat = some op → isIllegalByte op = true →
    step s = .next (afterFailure s .invalidOpcode op)

/-! ## The step -/

/-- A step runs the decoded instruction: where the core is Running and the bytes at `pc` decode to `i`, the step is `exec
i` in the same state, with nothing around it. -/
def Obligations.StepRunsTheDecoded : Prop :=
  ∀ (s : State) (i : Instr) (rest : List Byte),
    s.status = .running → decode (fetchBytes s) = .instr i rest → step s = exec i s

/-- R57: the tests of the step in their order, and the instruction executed with the bytes that stand at `pc`. The tests
are the spec's decisions D3, D9 and D12. -/
def Obligations.StepMakesTheTests : Prop :=
  ∀ s : State, s.status = .running →
    (s.streamLen.toNat ≤ s.pc.toNat → step s = .next (afterFailure s .truncatedStream 0)) ∧
    ∀ op : Byte, s.pc.toNat < s.streamLen.toNat → imemRead s s.pc.toNat = some op →
      (operandWidth op = none → step s = .next (afterFailure s .invalidOpcode op)) ∧
      ∀ w, operandWidth op = some w →
        (s.streamLen.toNat < s.pc.toNat + 1 + w → step s = .next (afterFailure s .truncatedStream 0)) ∧
        (s.pc.toNat + 1 + w ≤ s.streamLen.toNat →
          ∃ i, InstrAt s i ∧ opcodeOf i = op ∧ instrLength i = 1 + w ∧ step s = exec i s)

/-- R60: for every Running state the step gives one outcome, a completed instruction or one of the five failures. The spec
derives it from its other rules. -/
def Obligations.StepIsTotal : Prop :=
  ∀ s : State, s.status = .running →
    ∃ t, step s = .next t ∧
      ((t.status ≠ .haltedFailure ∧ ∃ i, InstrAt s i ∧ exec i s = .next t) ∨ ∃ f : Failure, t = s.raise f)

/-- R134: a halted core has no step: the model stops there with its own fault, and a run of any budget returns the state
unchanged (R133). That nothing happens there is the spec's decision D20; the fault is the model's, log entry 10. -/
def Obligations.HaltedCoreIsFrozen : Prop :=
  ∀ s : State, s.status ≠ .running → step s = .fault .halted ∧ ∀ budget, runFor budget s = s

/-- R119: a failing step writes status and the fault record and nothing else: registers, stack, pc, out and the stream are
those of the state before, the recorded pc is that of the failing instruction, the recorded byte is the opcode byte
for InvalidOpcode and 0 for every other failure. -/
def Obligations.FailuresArePrecise : Prop :=
  ∀ s t : State, step s = .next t → t.status = .haltedFailure →
    t = afterFailure s t.faultCode t.faultByte ∧ t.faultCode ≠ .none ∧
    (t.faultCode = .invalidOpcode → imemRead s s.pc.toNat = some t.faultByte) ∧
    (t.faultCode ≠ .invalidOpcode → t.faultByte = 0)

/-- R22: a step leaves only Running; HaltedSuccess comes from HALT alone, HaltedFailure from the five failures alone, and
every other step stays in Running; the encoding of status is 0, 1, 2. The encoding is the spec's decision D10. -/
def Obligations.StatusTransitions : Prop :=
  (statusBits .running = 0 ∧ statusBits .haltedSuccess = 1 ∧ statusBits .haltedFailure = 2) ∧
  ∀ s t : State, step s = .next t →
    s.status = .running ∧
    (t.status = .haltedSuccess ↔ imemRead s s.pc.toNat = some 0x00) ∧
    (t.status = .haltedFailure ↔ ∃ f : Failure, t = s.raise f)

/-- R17, R18: the pc after a step that does not fail is the target of a taken jump, or `pc0 + 1 + w`, a sum that does not
wrap; after a failing step it is pc0. The pc after a failing step is the spec's decision D8. -/
def Obligations.PcAfterAStep : Prop :=
  ∀ s t : State, step s = .next t →
    (t.status = .haltedFailure → t.pc = s.pc) ∧
    (t.status ≠ .haltedFailure → ∃ i, InstrAt s i ∧
      (∀ target, jumpTaken i s = some target → t.pc = target) ∧
      (jumpTaken i s = none → t.pc.toNat = s.pc.toNat + instrLength i))

/-- R16: "0 <= pc <= stream length" is kept by every step but a taken jump: where no instruction standing at `pc` is a jump
that is taken (there may be none at all: the opcode fetch past the end, an illegal byte, a truncated operand), a step from
a pc of at most L leaves one. The exception for a taken jump is the spec's decision D11. -/
def Obligations.PcStaysInTheStream : Prop :=
  ∀ s t : State, (∀ i : Instr, InstrAt s i → jumpTaken i s = none) → step s = .next t →
    s.pc.toNat ≤ s.streamLen.toNat → t.pc.toNat ≤ t.streamLen.toNat

/-- R23, R111 to R116: what the fault record says of a step that failed is true of the state it left, which still shows
the cause; the codes are 1 to 5. It rests on the spec's decisions D3, D7, D8 and D10. -/
def Obligations.FaultRecordTellsTheCause : Prop :=
  (faultCodeBits .none = 0 ∧ faultCodeBits .divisionByZero = 1 ∧ faultCodeBits .invalidOpcode = 2 ∧
    faultCodeBits .truncatedStream = 3 ∧ faultCodeBits .stackOverflow = 4 ∧ faultCodeBits .stackUnderflow = 5) ∧
  ∀ s t : State, step s = .next t → t.status = .haltedFailure → t.faultPc = s.pc ∧ CauseOf t.faultCode t

/-! ## Invariants -/

/-- Every step keeps the invariant: at most 256 values on the stack (R20), the stream canonical, a failure recorded
exactly in HaltedFailure and at the frozen pc (R23, R120), HaltedSuccess one past a HALT (R134). It rests on the
spec's decisions D6, D8, D10 and D20 and on log entry 2. -/
def Obligations.StepKeepsInv : Prop :=
  ∀ s t : State, Inv s → step s = .next t → Inv t

/-- The reset state meets the invariant. It rests on the spec's decisions D10 and D23 and on log entries 1 and 2. -/
def Obligations.ResetMeetsInv : Prop := Inv State.reset

/-- Every state that reset can begin a run in meets the invariant. It rests on log entries 1 and 2. -/
def Obligations.CreateMeetsInv : Prop :=
  ∀ (bytes : List Byte) (s : State), create bytes = some s → Inv s

/-- R134, R23, R112 to R116: in every state a run can be in, a recorded failure has its cause still in view, and
HaltedFailure is exactly a recorded failure. It rests on the spec's decisions D3, D7, D8 and D10. -/
def Obligations.ReachableFailuresShowTheirCause : Prop :=
  ∀ s : State, Reachable s → (s.status = .haltedFailure ↔ s.faultCode ≠ .none) ∧ CauseOf s.faultCode s

/-! ## HALT and NOP -/

/-- R64: HALT passes its byte, sets HaltedSuccess and writes nothing else; the core has no step after it; no other
instruction produces HaltedSuccess; running off the end without HALT is TruncatedStream. -/
def Obligations.HaltRule : Prop :=
  (∀ rest, decode (0x00 :: rest) = .instr .halt rest) ∧
  (∀ s : State, ∃ t, exec .halt s = .next t ∧ t = { s with pc := s.pc + 1, status := .haltedSuccess } ∧
    ∀ u, step t ≠ .next u) ∧
  (∀ (i : Instr) (s t : State), exec i s = .next t → s.status ≠ .haltedSuccess → t.status = .haltedSuccess → i = .halt) ∧
  ∀ s : State, s.status = .running → s.streamLen.toNat ≤ s.pc.toNat → step s = .next (afterFailure s .truncatedStream 0)

/-- R65: NOP passes its byte and changes nothing but `pc`; its neighbours 0xF1 and 0xF3 are illegal. -/
def Obligations.NopRule : Prop :=
  (∀ rest, decode (0xF0 :: rest) = .instr .nop rest) ∧
  (∀ s : State, exec .nop s = .next { s with pc := s.pc + 1 }) ∧
  ∀ rest, decode (0xF1 :: rest) = .illegalOpcode 0xF1 ∧ decode (0xF3 :: rest) = .illegalOpcode 0xF3

/-! ## Constant pushes -/

/-- R67 to R70: each small constant pushes its pattern where there is room and raises StackOverflow on a full stack. The
patterns are general knowledge by the spec's own mark; that AM's 0 is +0.0 is its decision D24. -/
def Obligations.SmallConstantRules : Prop :=
  (∀ rest, decode (0x0A :: rest) = .instr .dconstM1 rest ∧ decode (0x0B :: rest) = .instr .dconst0 rest ∧
    decode (0x0C :: rest) = .instr .dconst1 rest ∧ decode (0x0D :: rest) = .instr .dconst2 rest) ∧
  (∀ s : State, s.sp < 256 →
    exec .dconstM1 s = .next { s with stack := 0xBFF0000000000000 :: s.stack, pc := s.pc + 1 } ∧
    exec .dconst0 s = .next { s with stack := 0x0000000000000000 :: s.stack, pc := s.pc + 1 } ∧
    exec .dconst1 s = .next { s with stack := 0x3FF0000000000000 :: s.stack, pc := s.pc + 1 } ∧
    exec .dconst2 s = .next { s with stack := 0x4000000000000000 :: s.stack, pc := s.pc + 1 }) ∧
  ∀ (s : State) (i : Instr), i ∈ [Instr.dconstM1, .dconst0, .dconst1, .dconst2] → s.sp = 256 →
    exec i s = .next (afterFailure s .stackOverflow 0)

/-- R71: DCONST pushes its immediate, bit for bit, and passes 9 bytes; StackOverflow on a full stack; TruncatedStream,
whatever the stack, where fewer than 8 bytes follow the opcode. The order of the bytes is the spec's decision D2, the
order of the tests its decision D9. -/
def Obligations.DconstRule : Prop :=
  (∀ imm : F64, encode (.dconst imm) = 0x0F ::
    [imm.extractLsb' 56 8, imm.extractLsb' 48 8, imm.extractLsb' 40 8, imm.extractLsb' 32 8,
     imm.extractLsb' 24 8, imm.extractLsb' 16 8, imm.extractLsb' 8 8, imm.extractLsb' 0 8]) ∧
  (∀ (s : State) (imm : F64), s.sp < 256 →
    exec (.dconst imm) s = .next { s with stack := imm :: s.stack, pc := s.pc + 9 }) ∧
  (∀ (s : State) (imm : F64), s.sp = 256 → exec (.dconst imm) s = .next (afterFailure s .stackOverflow 0)) ∧
  ∀ s : State, s.status = .running → imemRead s s.pc.toNat = some 0x0F → s.streamLen.toNat < s.pc.toNat + 9 →
    step s = .next (afterFailure s .truncatedStream 0)

/-! ## Jumps -/

/-- R76 to R82: each jump goes to its absolute target when its relation holds between r1 and r2, and past its 4 operand
bytes when it does not; nothing else changes; TruncatedStream where fewer than 4 bytes follow the opcode, taken or
not. The pairing is the spec's decision D1, the fetch of an untaken jump's operand its decision D12. -/
def Obligations.JumpRules : Prop :=
  (∀ (s : State) (addr : Offset),
    exec (.jeq addr) s = .next { s with pc := if f64Eq s.r1 s.r2 then addr else s.pc + 5 } ∧
    exec (.jne addr) s = .next { s with pc := if f64Ne s.r1 s.r2 then addr else s.pc + 5 } ∧
    exec (.jlt addr) s = .next { s with pc := if f64Lt s.r1 s.r2 then addr else s.pc + 5 } ∧
    exec (.jle addr) s = .next { s with pc := if f64Le s.r1 s.r2 then addr else s.pc + 5 } ∧
    exec (.jgt addr) s = .next { s with pc := if f64Lt s.r2 s.r1 then addr else s.pc + 5 } ∧
    exec (.jge addr) s = .next { s with pc := if f64Le s.r2 s.r1 then addr else s.pc + 5 }) ∧
  (∀ addr : Offset,
    (opcodeOf (.jeq addr) = 0x10 ∧ opcodeOf (.jne addr) = 0x11 ∧ opcodeOf (.jlt addr) = 0x12 ∧
      opcodeOf (.jle addr) = 0x13 ∧ opcodeOf (.jgt addr) = 0x14 ∧ opcodeOf (.jge addr) = 0x15) ∧
    ∀ i ∈ [Instr.jeq addr, .jne addr, .jlt addr, .jle addr, .jgt addr, .jge addr],
      encode i = opcodeOf i ::
        [addr.extractLsb' 24 8, addr.extractLsb' 16 8, addr.extractLsb' 8 8, addr.extractLsb' 0 8]) ∧
  ∀ (s : State) (op : Byte), op ∈ jOpcodes → s.status = .running → imemRead s s.pc.toNat = some op →
    s.streamLen.toNat < s.pc.toNat + 5 → step s = .next (afterFailure s .truncatedStream 0)

/-- R73: two values are equal exactly when neither is a NaN and they are the same real number or the same infinity. The
law of the zeros is general knowledge by the spec's own mark. -/
def Obligations.EqualityLaw : Prop :=
  ∀ a b : F64,
    (f64Eq a b = true ↔ isNaN a = false ∧ isNaN b = false ∧
      ((isFinite a = true ∧ isFinite b = true ∧ value a = value b) ∨
       (isInf a = true ∧ isInf b = true ∧ signBit a = signBit b))) ∧
    f64Ne a b = !f64Eq a b

/-- R74: the order of the real numbers with -inf below and +inf above every one, NaNs unordered. The law of the zeros and
infinities is general knowledge by the spec's own mark. -/
def Obligations.OrderLaw : Prop :=
  ∀ a b : F64,
    (f64Lt a b = true ↔ isNaN a = false ∧ isNaN b = false ∧
      ((isFinite a = true ∧ isFinite b = true ∧ value a < value b) ∨
       (isInf a = true ∧ signBit a = true ∧ ¬(isInf b = true ∧ signBit b = true)) ∨
       (isInf b = true ∧ signBit b = false ∧ ¬(isInf a = true ∧ signBit a = false)))) ∧
    (f64Le a b = true ↔ isNaN a = false ∧ isNaN b = false ∧ (f64Lt a b = true ∨ f64Eq a b = true)) ∧
    f64Gt a b = f64Lt b a ∧ f64Ge a b = f64Le b a ∧
    (isNaN a = true ∨ isNaN b = true →
      f64Lt a b = false ∧ f64Le a b = false ∧ f64Gt a b = false ∧ f64Ge a b = false)

/-- R75: the outcome of each jump in each of the four cases, one of which always holds. The spec derives it from R73 and
R74. -/
def Obligations.JumpOutcomeTable : Prop :=
  ∀ (s : State) (addr : Offset),
    let taken : Host.Outcome State Fault Refusal := .next { s with pc := addr }
    let notTaken : Host.Outcome State Fault Refusal := .next { s with pc := s.pc + 5 }
    (f64Eq s.r1 s.r2 = true ∨ f64Lt s.r1 s.r2 = true ∨ f64Lt s.r2 s.r1 = true ∨ isNaN s.r1 = true ∨ isNaN s.r2 = true) ∧
    (f64Eq s.r1 s.r2 = true →
      exec (.jeq addr) s = taken ∧ exec (.jne addr) s = notTaken ∧ exec (.jlt addr) s = notTaken ∧
      exec (.jle addr) s = taken ∧ exec (.jgt addr) s = notTaken ∧ exec (.jge addr) s = taken) ∧
    (f64Lt s.r1 s.r2 = true →
      exec (.jeq addr) s = notTaken ∧ exec (.jne addr) s = taken ∧ exec (.jlt addr) s = taken ∧
      exec (.jle addr) s = taken ∧ exec (.jgt addr) s = notTaken ∧ exec (.jge addr) s = notTaken) ∧
    (f64Lt s.r2 s.r1 = true →
      exec (.jeq addr) s = notTaken ∧ exec (.jne addr) s = taken ∧ exec (.jlt addr) s = notTaken ∧
      exec (.jle addr) s = notTaken ∧ exec (.jgt addr) s = taken ∧ exec (.jge addr) s = taken) ∧
    (isNaN s.r1 = true ∨ isNaN s.r2 = true →
      exec (.jeq addr) s = notTaken ∧ exec (.jne addr) s = taken ∧ exec (.jlt addr) s = notTaken ∧
      exec (.jle addr) s = notTaken ∧ exec (.jgt addr) s = notTaken ∧ exec (.jge addr) s = notTaken)

/-- R83: a taken jump is not checked: it completes with any 32-bit target, and a target at or past the end of the stream
fails at the next step, with the target as the reported pc. The spec's decision D11. -/
def Obligations.TargetIsNotChecked : Prop :=
  ∀ (s t : State) (i : Instr) (addr : Offset), s.status = .running → jumpTaken i s = some addr →
    exec i s = .next { s with pc := addr } ∧
    (exec i s = .next t → s.streamLen.toNat ≤ addr.toNat →
      step t = .next (afterFailure t .truncatedStream 0) ∧ (afterFailure t .truncatedStream 0).faultPc = addr)

/-! ## Arithmetic -/

/-- R92: ADD of at least two values takes the top as `b` and the value below it as `a`, leaves `f64Add a b` in the place
of both and passes 1 byte; with fewer than two values it is StackUnderflow and nothing is popped. What f64Add is rests
on the spec's decision D13. -/
def Obligations.AddRule : Prop :=
  (∀ rest, decode (0x60 :: rest) = .instr .add rest) ∧
  (∀ (s : State) (a b : F64) (below : List F64), s.stack = b :: a :: below →
    exec .add s = .next { s with stack := f64Add a b :: below, pc := s.pc + 1 }) ∧
  ∀ s : State, s.sp < 2 → exec .add s = .next (afterFailure s .stackUnderflow 0)

/-- R93: SUB of at least two values takes the top as `b` and the value below it as `a`, leaves `f64Sub a b` in the place
of both and passes 1 byte; with fewer than two values it is StackUnderflow and nothing is popped. What f64Sub is rests
on the spec's decision D13. -/
def Obligations.SubRule : Prop :=
  (∀ rest, decode (0x61 :: rest) = .instr .sub rest) ∧
  (∀ (s : State) (a b : F64) (below : List F64), s.stack = b :: a :: below →
    exec .sub s = .next { s with stack := f64Sub a b :: below, pc := s.pc + 1 }) ∧
  ∀ s : State, s.sp < 2 → exec .sub s = .next (afterFailure s .stackUnderflow 0)

/-- R94: MUL of at least two values takes the top as `b` and the value below it as `a`, leaves `f64Mul a b` in the place
of both and passes 1 byte; with fewer than two values it is StackUnderflow and nothing is popped. What f64Mul is rests
on the spec's decision D13. -/
def Obligations.MulRule : Prop :=
  (∀ rest, decode (0x62 :: rest) = .instr .mul rest) ∧
  (∀ (s : State) (a b : F64) (below : List F64), s.stack = b :: a :: below →
    exec .mul s = .next { s with stack := f64Mul a b :: below, pc := s.pc + 1 }) ∧
  ∀ s : State, s.sp < 2 → exec .mul s = .next (afterFailure s .stackUnderflow 0)

/-- R95: DIV: a divisor that is a zero of either sign is DivisionByZero whatever the dividend, any other divisor (a NaN, a
subnormal) completes; the depth is tested first. That -0.0 fails and which pc is reported are the spec's decisions D22
and D7. -/
def Obligations.DivRule : Prop :=
  (∀ rest, decode (0x64 :: rest) = .instr .div rest) ∧
  (∀ (s : State) (a b : F64) (below : List F64), s.stack = b :: a :: below → isZero b = false →
    exec .div s = .next { s with stack := f64Div a b :: below, pc := s.pc + 1 }) ∧
  (∀ (s : State) (a b : F64) (below : List F64), s.stack = b :: a :: below → isZero b = true →
    exec .div s = .next (afterFailure s .divisionByZero 0)) ∧
  (∀ b : F64, isZero b = true ↔ b = 0x0000000000000000 ∨ b = 0x8000000000000000) ∧
  ∀ s : State, s.sp < 2 → exec .div s = .next (afterFailure s .stackUnderflow 0)

/-- R96: NEG flips the sign bit of the top and keeps the depth, full stack or not. That NEG flips the sign bit is the
spec's decision D15. -/
def Obligations.NegRule : Prop :=
  (∀ rest, decode (0x70 :: rest) = .instr .neg rest) ∧
  (∀ (s : State) (a : F64) (below : List F64), s.stack = a :: below →
    exec .neg s = .next { s with stack := (a ^^^ 0x8000000000000000) :: below, pc := s.pc + 1 }) ∧
  ∀ s : State, s.sp = 0 → exec .neg s = .next (afterFailure s .stackUnderflow 0)

/-- R90: negation inverts the sign bit and leaves the other 63, for every pattern; twice restores the bits; a NaN stays a
NaN and no other pattern becomes one; the value of a finite pattern is negated. The spec's decision D15. -/
def Obligations.NegationLaw : Prop :=
  ∀ a : F64,
    (∀ k, k < 63 → (f64Neg a).getLsbD k = a.getLsbD k) ∧ (f64Neg a).getLsbD 63 = !a.getLsbD 63 ∧
    f64Neg (f64Neg a) = a ∧ isNaN (f64Neg a) = isNaN a ∧ isInf (f64Neg a) = isInf a ∧
    (isFinite a = true → value (f64Neg a) = -value a)

/-- R7: the value of a finite pattern from its fields: a normal number, a subnormal, a zero. General knowledge by the
spec's own mark. -/
def Obligations.BinaryLayout : Prop :=
  ∀ v : F64,
    (expField v ≠ 0 → expField v ≠ 0x7FF →
      value v = (if signBit v then -1 else 1) * (2 : ℚ) ^ (((expField v).toNat : ℤ) - 1023) *
        (1 + (fracField v).toNat / 2 ^ 52)) ∧
    (expField v = 0 →
      value v = (if signBit v then -1 else 1) * (2 : ℚ) ^ (-1022 : ℤ) * ((fracField v).toNat / 2 ^ 52)) ∧
    (isFinite v = true ↔ expField v ≠ 0x7FF) ∧ (isZero v = true ↔ isFinite v = true ∧ value v = 0)

/-- R84: on finite operands the four operations give the exact real result rounded to nearest, ties to even, with gradual
underflow and overflow to infinity (an exact result of 0 is in R85 to R87). The spec's decision D13, general knowledge
by its own mark. -/
def Obligations.AluRoundsToNearestEven : Prop :=
  ∀ a b : F64, isFinite a = true → isFinite b = true →
    (value a + value b ≠ 0 → RoundsTo (value a + value b) (f64Add a b)) ∧
    (value a - value b ≠ 0 → RoundsTo (value a - value b) (f64Sub a b)) ∧
    (value a * value b ≠ 0 → RoundsTo (value a * value b) (f64Mul a b)) ∧
    (value a ≠ 0 → value b ≠ 0 → RoundsTo (value a / value b) (f64Div a b))

/-- R85: the special cases of addition and subtraction. The spec's decision D13. The first clause takes R85's equation to
the letter, for a result that is a NaN too, so that SUB and ADD of the negation give the same NaN pattern: that is the
model's reading, log entry 9 (DEDUCED), which R88 and decision D14 leave open. -/
def Obligations.AddSubSpecialCases : Prop :=
  ∀ a b : F64, isNaN a = false → isNaN b = false →
    f64Sub a b = f64Add a (f64Neg b) ∧
    (isInf a = true → isInf b = true → signBit a = signBit b → f64Add a b = a) ∧
    (isInf a = true → isInf b = true → signBit a ≠ signBit b → isNaN (f64Add a b) = true) ∧
    (isInf a = true → isFinite b = true → f64Add a b = a ∧ f64Add b a = a) ∧
    (isFinite a = true → isFinite b = true → isZero a = false → isZero b = false → value a + value b = 0 →
      f64Add a b = 0x0000000000000000) ∧
    (isZero a = true → isZero b = true →
      f64Add a b = if signBit a && signBit b then 0x8000000000000000 else 0x0000000000000000) ∧
    (isFinite a = true → isZero a = false → isZero b = true → f64Add a b = a ∧ f64Add b a = a) ∧
    (isFinite a = true → f64Sub a a = 0x0000000000000000)

/-- R86: the special cases of multiplication. The spec's decision D13. -/
def Obligations.MulSpecialCases : Prop :=
  ∀ a b : F64, isNaN a = false → isNaN b = false →
    ((isInf a = true ∧ isZero b = true) ∨ (isZero a = true ∧ isInf b = true) → isNaN (f64Mul a b) = true) ∧
    (¬((isInf a = true ∧ isZero b = true) ∨ (isZero a = true ∧ isInf b = true)) →
      signBit (f64Mul a b) = (signBit a ^^ signBit b)) ∧
    ((isInf a = true ∧ isZero b = false) ∨ (isZero a = false ∧ isInf b = true) → isInf (f64Mul a b) = true) ∧
    ((isZero a = true ∧ isFinite b = true) ∨ (isFinite a = true ∧ isZero b = true) → isZero (f64Mul a b) = true)

/-- R87: the special cases of division by a divisor that is not zero. The spec's decision D13. -/
def Obligations.DivSpecialCases : Prop :=
  ∀ a b : F64, isNaN a = false → isNaN b = false → isZero b = false →
    (isInf a = true → isInf b = true → isNaN (f64Div a b) = true) ∧
    (¬(isInf a = true ∧ isInf b = true) → signBit (f64Div a b) = (signBit a ^^ signBit b)) ∧
    (isZero a = true → isZero (f64Div a b) = true) ∧
    (isFinite a = true → isInf b = true → isZero (f64Div a b) = true) ∧
    (isInf a = true → isFinite b = true → isInf (f64Div a b) = true)

/-- R88: a NaN comes of a NaN operand or of an invalid operation, and of nothing else. Which NaN it is, nothing states:
`Config.nanResult` is free (log entry 4, the spec's decision D14). -/
def Obligations.NanResults : Prop :=
  ∀ a b : F64,
    (isNaN (f64Add a b) = true ↔ isNaN a = true ∨ isNaN b = true ∨
      (isInf a = true ∧ isInf b = true ∧ signBit a ≠ signBit b)) ∧
    (isNaN (f64Sub a b) = true ↔ isNaN a = true ∨ isNaN b = true ∨
      (isInf a = true ∧ isInf b = true ∧ signBit a = signBit b)) ∧
    (isNaN (f64Mul a b) = true ↔ isNaN a = true ∨ isNaN b = true ∨
      (isInf a = true ∧ isZero b = true) ∨ (isZero a = true ∧ isInf b = true)) ∧
    (isZero b = false →
      (isNaN (f64Div a b) = true ↔ isNaN a = true ∨ isNaN b = true ∨ (isInf a = true ∧ isInf b = true)))

/-- R91: `b` is the slot `sp-1`, `a` the slot `sp-2`; the result replaces `a` in slot `sp-2` and the depth falls by one
(for DIV, of a divisor that is not zero); 5.0 - 2.0 is 3.0. -/
def Obligations.OperandOrder : Prop :=
  (∀ (s : State) (a b : F64), 2 ≤ s.sp → s.slot (s.sp - 1) = some b → s.slot (s.sp - 2) = some a →
    ∀ p ∈ [(Instr.add, f64Add a b), (.sub, f64Sub a b), (.mul, f64Mul a b), (.div, f64Div a b)],
      p.1 = .div ∧ isZero b = true ∨
      ∃ t, exec p.1 s = .next t ∧ t.sp = s.sp - 1 ∧ t.slot (s.sp - 2) = some p.2 ∧
        ∀ k, k < s.sp - 2 → t.slot k = s.slot k) ∧
  f64Sub 0x4014000000000000 0x4000000000000000 = 0x4008000000000000

/-! ## Register transfers and PRINT -/

/-- R100, R102: ST1 and ST2 pop the top into their register, bit for bit; StackUnderflow on an empty stack. -/
def Obligations.StoreRules : Prop :=
  (∀ rest, decode (0xF4 :: rest) = .instr .st1 rest ∧ decode (0xF6 :: rest) = .instr .st2 rest) ∧
  (∀ (s : State) (v : F64) (below : List F64), s.stack = v :: below →
    exec .st1 s = .next { s with r1 := v, stack := below, pc := s.pc + 1 } ∧
    exec .st2 s = .next { s with r2 := v, stack := below, pc := s.pc + 1 }) ∧
  ∀ s : State, s.sp = 0 →
    exec .st1 s = .next (afterFailure s .stackUnderflow 0) ∧ exec .st2 s = .next (afterFailure s .stackUnderflow 0)

/-- R101, R103: LD1 and LD2 push their register, bit for bit; StackOverflow on a full stack; before any store they push
the reset value +0.0. -/
def Obligations.LoadRules : Prop :=
  (∀ rest, decode (0xF5 :: rest) = .instr .ld1 rest ∧ decode (0xF7 :: rest) = .instr .ld2 rest) ∧
  (∀ s : State, s.sp < 256 →
    exec .ld1 s = .next { s with stack := s.r1 :: s.stack, pc := s.pc + 1 } ∧
    exec .ld2 s = .next { s with stack := s.r2 :: s.stack, pc := s.pc + 1 }) ∧
  (∀ s : State, s.sp = 256 →
    exec .ld1 s = .next (afterFailure s .stackOverflow 0) ∧ exec .ld2 s = .next (afterFailure s .stackOverflow 0)) ∧
  State.reset.r1 = 0x0000000000000000 ∧ State.reset.r2 = 0x0000000000000000

/-- R104: a store and a load of the same register return the value unchanged, for every pattern. That every pattern is
kept is the spec's decision D16. -/
def Obligations.TransferRoundTrip : Prop :=
  ∀ (s : State) (v : F64) (below : List F64), s.stack = v :: below → s.sp ≤ 256 →
    (∃ t u, exec .st1 s = .next t ∧ exec .ld1 t = .next u ∧ u.stack = v :: below ∧ u.r1 = v ∧ u.r2 = s.r2) ∧
    (∃ t u, exec .st2 s = .next t ∧ exec .ld2 t = .next u ∧ u.stack = v :: below ∧ u.r2 = v ∧ u.r1 = s.r1)

/-- R106: PRINT pops the top and emits it, bit for bit; StackUnderflow on an empty stack. -/
def Obligations.PrintRule : Prop :=
  (∀ rest, decode (0xF2 :: rest) = .instr .print rest) ∧
  (∀ (s : State) (v : F64) (below : List F64), s.stack = v :: below →
    exec .print s = .next { s with stack := below, out := s.out ++ [v], pc := s.pc + 1 }) ∧
  ∀ s : State, s.sp = 0 → exec .print s = .next (afterFailure s .stackUnderflow 0)

/-! ## Frames over the whole instruction set -/

/-- R15: ST1 writes r1, ST2 writes r2, and no other instruction writes a register; r1 is read by LD1 and the six jumps, r2
by LD2 and the six jumps, and no other instruction depends on it. -/
def Obligations.RegistersFrame : Prop :=
  (∀ (i : Instr) (s t : State), exec i s = .next t →
    (i ≠ .st1 → t.r1 = s.r1) ∧ (i ≠ .st2 → t.r2 = s.r2)) ∧
  (∀ (i : Instr) (s t : State) (v : F64), readsBoth i = false → exec i s = .next t →
    (i ≠ .ld1 → i ≠ .st1 → exec i { s with r1 := v } = .next { t with r1 := v }) ∧
    (i ≠ .ld2 → i ≠ .st2 → exec i { s with r2 := v } = .next { t with r2 := v })) ∧
  ∀ (s : State) (v : F64), 0 < s.sp →
    exec .st1 { s with r1 := v } = exec .st1 s ∧ exec .st2 { s with r2 := v } = exec .st2 s

/-- R107: one value is emitted per PRINT that completes, none by any other instruction and none by a PRINT that fails. -/
def Obligations.OutputFrame : Prop :=
  ∀ (i : Instr) (s t : State), s.status = .running → exec i s = .next t →
    (i ≠ .print → transfers s t = [] ∧ t.out = s.out) ∧
    (t.status = .haltedFailure → t.out = s.out) ∧
    (i = .print → t.status ≠ .haltedFailure →
      ∃ v, s.slot (s.sp - 1) = some v ∧ transfers s t = [v] ∧ t.out = s.out ++ [v])

/-- R21: an instruction reaches the stack only at its top: the slots below the two topmost keep their values and have no
influence on what it does, the depth changes by at most one, and HALT, NOP and the jumps touch no slot at all. -/
def Obligations.StackFrame : Prop :=
  (∀ (i : Instr) (s t : State), exec i s = .next t →
    (∀ k, k + 2 < s.sp → t.slot k = s.slot k) ∧ t.sp ≤ s.sp + 1 ∧ s.sp ≤ t.sp + 1 ∧
    (leavesStack i = true → t.stack = s.stack)) ∧
  ∀ (i : Instr) (s t : State) (b a : F64) (below below' : List F64), s.stack = b :: a :: below →
    below'.length = below.length → exec i s = .next t →
    ∃ top, t.stack = top ++ below ∧
      exec i { s with stack := b :: a :: below' } = .next { t with stack := top ++ below' }

/-- R22, R23: no instruction writes status or the fault record but HALT (status alone) and a failure (all four). The
fields are the spec's decision D10. -/
def Obligations.StatusFrame : Prop :=
  ∀ (i : Instr) (s t : State), exec i s = .next t →
    (t.faultCode = s.faultCode ∧ t.faultPc = s.faultPc ∧ t.faultByte = s.faultByte ∧
      (i ≠ .halt → t.status = s.status)) ∨
    (∃ f : Failure, t = s.raise f)

/-- R24, R110: the output is one-way: what has been printed has no influence on a step but that the values it emits come
after it. -/
def Obligations.OutputIsOneWay : Prop :=
  ∀ (s t : State) (o : List F64), step s = .next t →
    step { s with out := o } = .next { t with out := o ++ transfers s t }

/-! ## Stepping -/

/-- R136: the host may stop after any number of steps and go on later; the states it comes to are the same. A core it
leaves Running was Running before and no fault record has been produced. -/
def Obligations.StoppingAndResuming : Prop :=
  ∀ (m n : Nat) (s : State), runFor (m + n) s = runFor n (runFor m s) ∧
    ((runFor m s).status = .running → s.status = .running ∧ (runFor m s).faultCode = s.faultCode ∧
      (runFor m s).faultPc = s.faultPc ∧ (runFor m s).faultByte = s.faultByte)

/-! ## Ports -/

/-- R31: the result port shows status and the fault record, status as 0 (Running), 1 (HaltedSuccess), 2 (HaltedFailure) and
the code as 0 (none) and 1 to 5 (R22, R23); and the mapping to the result of a run. The codes and the port are the spec's
decisions D10 and D18. -/
def Obligations.ResultMapping : Prop :=
  ∀ s : State,
    (resultPort s).status = (match s.status with | .running => 0 | .haltedSuccess => 1 | .haltedFailure => 2) ∧
    (resultPort s).faultCode = (match s.faultCode with
      | .none => 0 | .divisionByZero => 1 | .invalidOpcode => 2
      | .truncatedStream => 3 | .stackOverflow => 4 | .stackUnderflow => 5) ∧
    (resultPort s).faultPc = s.faultPc ∧ (resultPort s).faultByte = s.faultByte ∧
    (resultPort s).status = statusBits s.status ∧ (resultPort s).faultCode = faultCodeBits s.faultCode ∧
    (s.status = .running → executionResult s = none) ∧
    (s.status = .haltedSuccess → executionResult s = some .success) ∧
    (s.status = .haltedFailure →
      (s.faultCode = .divisionByZero → executionResult s = some (.divisionByZero s.faultPc)) ∧
      (s.faultCode = .invalidOpcode → executionResult s = some (.invalidOpcode s.faultByte s.faultPc)) ∧
      (s.faultCode = .truncatedStream → executionResult s = some (.truncatedStream s.faultPc)) ∧
      (s.faultCode = .stackOverflow → executionResult s = some (.stackOverflow s.faultPc)) ∧
      (s.faultCode = .stackUnderflow → executionResult s = some (.stackUnderflow s.faultPc)))

/-- R108: the text of a finite value: a minus sign exactly for a set sign bit, an integer part with no leading zeros and
at least one digit, a point, six digits; read as a number of millionths it is the exact value rounded, ties to even.
The text is the spec's decision D17, in part general knowledge by its own mark. -/
def Obligations.TextOfAFiniteValue : Prop :=
  ∀ v : F64, isFinite v = true → ∃ intpart frac : List Char,
    fmt6 v = (if signBit v then ['-'] else []) ++ intpart ++ ['.'] ++ frac ∧
    frac.length = 6 ∧ intpart ≠ [] ∧ (∀ c ∈ intpart ++ frac, isDigitChar c = true) ∧
    (intpart.head? = some '0' → intpart = ['0']) ∧
    |(digitsValue (intpart ++ frac) : ℚ) - |value v| * 10 ^ 6| ≤ 1 / 2 ∧
    (|(digitsValue (intpart ++ frac) : ℚ) - |value v| * 10 ^ 6| = 1 / 2 → digitsValue (intpart ++ frac) % 2 = 0)

/-- The model's tool (log entry 6), no rule of the spec: an instruction placed at `pc` by `withFetchWord` is what the next
step runs. The nine bytes from `pc` on are those of the word; every other byte below the old L is as before, L grows to
`pc + 9` where it was less and is as before otherwise, the offsets a longer stream gains below `pc` read 0x00; status
becomes Running, the fault record is cleared; pc, stack, registers and output are as before. -/
def Obligations.PlacedWordRuns : Prop :=
  ∀ (s : State) (nbits w : Nat) (i : Instr), StreamOk s → s.pc.toNat + 9 < 2 ^ 32 →
    decodeTableWord nbits w = some i →
    let t := s.withFetchWord nbits w
    step t = exec i t ∧
    (∀ k, k < 9 → imemRead t (s.pc.toNat + k) = (tableBytes nbits w)[k]?) ∧
    (∀ a, a < s.streamLen.toNat → a < s.pc.toNat ∨ s.pc.toNat + 9 ≤ a → imemRead t a = imemRead s a) ∧
    (∀ a, s.streamLen.toNat ≤ a → a < s.pc.toNat → imemRead t a = some 0x00) ∧
    t.streamLen.toNat = max s.streamLen.toNat (s.pc.toNat + 9) ∧
    t.status = .running ∧ t.faultCode = .none ∧ t.faultPc = 0 ∧ t.faultByte = 0 ∧
    t.pc = s.pc ∧ t.stack = s.stack ∧ t.r1 = s.r1 ∧ t.r2 = s.r2 ∧ t.out = s.out ∧ StreamOk t
end

