-- ==== Sys2Proof/Laws/Word.lean ====
section
/-! SUPPORT. The bounds of the words as literals: omega does not unfold the widths of Sys2Proof/Config.lean. -/

namespace Sys2Proof

/-- The modulus of offset arithmetic as a literal (PC_WIDTH, spec/00_scope R5). -/
@[simp] theorem Config.two_pow_pcWidth : 2 ^ Config.pcWidth = 4294967296 := rfl

/-- The modulus of 64-bit patterns as a literal (XLEN_F, R5). -/
@[simp] theorem Config.two_pow_xlenF : 2 ^ Config.xlenF = 18446744073709551616 := rfl

/-- Every offset below a stream length is a value of the program counter (R5, R18). -/
theorem Config.maxStreamLen_eq : Config.maxStreamLen = 2 ^ Config.pcWidth - 1 := rfl

/-- A value is below 2^64 (XLEN_F, R5). -/
theorem F64.toNat_lt (v : F64) : v.toNat < 2 ^ 64 := v.isLt

/-- An offset is below 2^32 (PC_WIDTH, R5). -/
theorem Offset.toNat_lt (a : Offset) : a.toNat < 2 ^ 32 := a.isLt

/-- The number an offset made of `n` is. -/
theorem Offset.toNat_ofNat (n : Nat) : (BitVec.ofNat Config.pcWidth n).toNat = n % 2 ^ 32 := BitVec.toNat_ofNat ..

/-- A sum of offsets is that of the numbers, modulo 2^32. -/
theorem Offset.toNat_add (a b : Offset) : (a + b).toNat = (a.toNat + b.toNat) % 2 ^ 32 := BitVec.toNat_add a b

end Sys2Proof
end

