-- ==== Sys2Proof/Laws/Decode.lean ====
section
/-! SUPPORT. The small laws of the decoder and the encoder: wire assembly and wire split undo each other, the opcode map row by
row. -/

namespace Sys2Proof

/-! ## Wire order -/

theorem append_toNat {w k : Nat} (x : BitVec w) (y : BitVec k) : (x ++ y).toNat = x.toNat * 2 ^ k + y.toNat := by
  rw [BitVec.toNat_append, Nat.shiftLeft_eq, Nat.mul_comm, Nat.two_pow_add_eq_or_of_lt y.isLt]

theorem extract_toNat {w : Nat} (v : BitVec w) (lo k : Nat) : (v.extractLsb' lo k).toNat = v.toNat / 2 ^ lo % 2 ^ k := by
  rw [BitVec.extractLsb'_toNat, Nat.shiftRight_eq_div_pow]

/-- The number a jump address is (R53). -/
theorem u32OfWire_toNat (b0 b1 b2 b3 : Byte) :
    (u32OfWire .bigEndian b0 b1 b2 b3).toNat =
      b0.toNat * 2 ^ 24 + b1.toNat * 2 ^ 16 + b2.toNat * 2 ^ 8 + b3.toNat := by
  simp only [u32OfWire, append_toNat]
  omega

/-- The number a double constant's pattern is (R54). -/
theorem f64OfWire_toNat (b0 b1 b2 b3 b4 b5 b6 b7 : Byte) :
    (f64OfWire .bigEndian b0 b1 b2 b3 b4 b5 b6 b7).toNat =
      b0.toNat * 2 ^ 56 + b1.toNat * 2 ^ 48 + b2.toNat * 2 ^ 40 + b3.toNat * 2 ^ 32 +
      b4.toNat * 2 ^ 24 + b5.toNat * 2 ^ 16 + b6.toNat * 2 ^ 8 + b7.toNat := by
  simp only [f64OfWire, append_toNat]
  omega

/-- Splitting a jump address into wire bytes and assembling them gives it back (R36). -/
theorem u32OfWire_split (v : Offset) :
    u32OfWire .bigEndian (v.extractLsb' 24 8) (v.extractLsb' 16 8) (v.extractLsb' 8 8) (v.extractLsb' 0 8) = v := by
  apply BitVec.eq_of_toNat_eq
  have := Offset.toNat_lt v
  simp only [u32OfWire_toNat, extract_toNat]
  omega

/-- Splitting a double constant into wire bytes and assembling them gives it back (R37, R54). -/
theorem f64OfWire_split (v : F64) :
    f64OfWire .bigEndian (v.extractLsb' 56 8) (v.extractLsb' 48 8) (v.extractLsb' 40 8) (v.extractLsb' 32 8)
      (v.extractLsb' 24 8) (v.extractLsb' 16 8) (v.extractLsb' 8 8) (v.extractLsb' 0 8) = v := by
  apply BitVec.eq_of_toNat_eq
  have := F64.toNat_lt v
  simp only [f64OfWire_toNat, extract_toNat]
  omega

/-- Assembling four wire bytes and splitting the address gives them back. -/
theorem u32ToWire_assembled (b0 b1 b2 b3 : Byte) :
    u32ToWire .bigEndian (u32OfWire .bigEndian b0 b1 b2 b3) = [b0, b1, b2, b3] := by
  have h0 := b0.isLt
  have h1 := b1.isLt
  have h2 := b2.isLt
  have h3 := b3.isLt
  simp only [u32ToWire, List.cons.injEq, and_true]
  refine ⟨?_, ?_, ?_, ?_⟩ <;> apply BitVec.eq_of_toNat_eq <;> rw [extract_toNat, u32OfWire_toNat] <;> omega

/-- Assembling eight wire bytes and splitting the constant gives them back. -/
theorem f64ToWire_assembled (b0 b1 b2 b3 b4 b5 b6 b7 : Byte) :
    f64ToWire .bigEndian (f64OfWire .bigEndian b0 b1 b2 b3 b4 b5 b6 b7) = [b0, b1, b2, b3, b4, b5, b6, b7] := by
  have h0 := b0.isLt
  have h1 := b1.isLt
  have h2 := b2.isLt
  have h3 := b3.isLt
  have h4 := b4.isLt
  have h5 := b5.isLt
  have h6 := b6.isLt
  have h7 := b7.isLt
  simp only [f64ToWire, List.cons.injEq, and_true]
  refine ⟨?_, ?_, ?_, ?_, ?_, ?_, ?_, ?_⟩ <;> apply BitVec.eq_of_toNat_eq <;> rw [extract_toNat, f64OfWire_toNat] <;>
    omega

/-! ## The opcode map -/

/-- Every row of the table is found under its opcode: no opcode has two rows. -/
theorem opcodeTable_distinct : (opcodeTable.map fun r => r.opcode).Pairwise (· ≠ ·) := by decide

/-- The table has one row for each of the 23 instructions. -/
theorem opcodeTable_length : opcodeTable.length = 23 := rfl

/-- A form the lookup finds is the form of a row with that opcode. -/
theorem opcodeForm_mem {op : Byte} {f : Form} (h : opcodeForm op = some f) : ⟨op, f⟩ ∈ opcodeTable := by
  simp only [opcodeForm, Option.map_eq_some_iff] at h
  obtain ⟨r, hr, rfl⟩ := h
  have hop : r.opcode = op := by simpa using List.find?_some hr
  rw [← hop]
  exact List.mem_of_find?_eq_some hr

@[simp] theorem opcodeForm_halt : opcodeForm 0x00 = some (.z .halt) := rfl
@[simp] theorem opcodeForm_dconstM1 : opcodeForm 0x0A = some (.z .dconstM1) := rfl
@[simp] theorem opcodeForm_dconst0 : opcodeForm 0x0B = some (.z .dconst0) := rfl
@[simp] theorem opcodeForm_dconst1 : opcodeForm 0x0C = some (.z .dconst1) := rfl
@[simp] theorem opcodeForm_dconst2 : opcodeForm 0x0D = some (.z .dconst2) := rfl
@[simp] theorem opcodeForm_dconst : opcodeForm 0x0F = some (.d .dconst) := rfl
@[simp] theorem opcodeForm_jeq : opcodeForm 0x10 = some (.j .jeq) := rfl
@[simp] theorem opcodeForm_jne : opcodeForm 0x11 = some (.j .jne) := rfl
@[simp] theorem opcodeForm_jlt : opcodeForm 0x12 = some (.j .jlt) := rfl
@[simp] theorem opcodeForm_jle : opcodeForm 0x13 = some (.j .jle) := rfl
@[simp] theorem opcodeForm_jgt : opcodeForm 0x14 = some (.j .jgt) := rfl
@[simp] theorem opcodeForm_jge : opcodeForm 0x15 = some (.j .jge) := rfl
@[simp] theorem opcodeForm_add : opcodeForm 0x60 = some (.z .add) := rfl
@[simp] theorem opcodeForm_sub : opcodeForm 0x61 = some (.z .sub) := rfl
@[simp] theorem opcodeForm_mul : opcodeForm 0x62 = some (.z .mul) := rfl
@[simp] theorem opcodeForm_div : opcodeForm 0x64 = some (.z .div) := rfl
@[simp] theorem opcodeForm_neg : opcodeForm 0x70 = some (.z .neg) := rfl
@[simp] theorem opcodeForm_nop : opcodeForm 0xF0 = some (.z .nop) := rfl
@[simp] theorem opcodeForm_print : opcodeForm 0xF2 = some (.z .print) := rfl
@[simp] theorem opcodeForm_st1 : opcodeForm 0xF4 = some (.z .st1) := rfl
@[simp] theorem opcodeForm_ld1 : opcodeForm 0xF5 = some (.z .ld1) := rfl
@[simp] theorem opcodeForm_st2 : opcodeForm 0xF6 = some (.z .st2) := rfl
@[simp] theorem opcodeForm_ld2 : opcodeForm 0xF7 = some (.z .ld2) := rfl

/-- The lookup under an instruction's own opcode gives a form of its own operand width: the two tables are in lockstep (R58). -/
theorem operandWidth_opcodeOf (i : Instr) : operandWidth (opcodeOf i) = some (instrLength i - 1) := by
  cases i <;> rfl

/-- The encoding has the length of the instruction (R51). -/
theorem encode_length (i : Instr) : (encode i).length = instrLength i := by
  cases i <;> rfl

/-- The three lengths (R49). -/
theorem instrLength_cases (i : Instr) : instrLength i = 1 ∨ instrLength i = 5 ∨ instrLength i = 9 := by
  cases i <;> simp [instrLength]

/-- The bits an instruction is given in are read as `maxInstrBytes` bytes. -/
theorem tableBytes_length (nbits w : Nat) : (tableBytes nbits w).length = 9 := by
  simp [tableBytes, maxInstrBytes]

end Sys2Proof
end

