-- ==== Sys2Proof/Laws/Float.lean ====
section
/-! SUPPORT. The laws of the ALU's parts: the fields of a pattern, the classes, the NaNs, and rounding. -/

namespace Sys2Proof.Machine

/-! ## Patterns and their fields -/

theorem expField_toNat (v : F64) : (expField v).toNat = v.toNat / 2 ^ 52 % 2 ^ 11 := by
  rw [expField, BitVec.extractLsb'_toNat, Nat.shiftRight_eq_div_pow]

theorem fracField_toNat (v : F64) : (fracField v).toNat = v.toNat % 2 ^ 52 := by
  rw [fracField, BitVec.extractLsb'_toNat, Nat.shiftRight_eq_div_pow, Nat.pow_zero, Nat.div_one]

theorem signBit_iff (v : F64) : signBit v = decide (2 ^ 63 ≤ v.toNat) := by
  have hv := F64.toNat_lt v
  rw [signBit, BitVec.getLsbD, Nat.testBit_eq_decide_div_mod_eq]
  congr 1
  apply propext
  omega

/-- A pattern is its sign and its low 63 bits. -/
theorem ofSignMag_toNat (neg : Bool) {mag : Nat} (h : mag < 2 ^ 63) :
    (ofSignMag neg mag).toNat = (if neg then 2 ^ 63 else 0) + mag := by
  have happ : ∀ x : BitVec 1, (x ++ BitVec.ofNat 63 mag).toNat = x.toNat * 2 ^ 63 + mag := by
    intro x
    rw [BitVec.toNat_append, Nat.shiftLeft_eq, Nat.mul_comm, ← Nat.two_pow_add_eq_or_of_lt (BitVec.isLt _)]
    rw [BitVec.toNat_ofNat, Nat.mod_eq_of_lt h]
  unfold ofSignMag
  refine (happ _).trans ?_
  cases neg <;> simp

theorem signBit_ofSignMag (neg : Bool) {mag : Nat} (h : mag < 2 ^ 63) : signBit (ofSignMag neg mag) = neg := by
  rw [signBit_iff, ofSignMag_toNat neg h]
  cases neg <;> simp
  omega

theorem expField_ofSignMag (neg : Bool) {mag : Nat} (h : mag < 2 ^ 63) :
    (expField (ofSignMag neg mag)).toNat = mag / 2 ^ 52 := by
  rw [expField_toNat, ofSignMag_toNat neg h]
  cases neg <;> simp <;> omega

theorem fracField_ofSignMag (neg : Bool) {mag : Nat} (h : mag < 2 ^ 63) :
    (fracField (ofSignMag neg mag)).toNat = mag % 2 ^ 52 := by
  rw [fracField_toNat, ofSignMag_toNat neg h]
  cases neg
  · simp
  · simp only [if_true]
    omega

/-- The low 63 bits of a pattern. -/
def magOf (v : F64) : Nat := v.toNat % 2 ^ 63

theorem magOf_lt (v : F64) : magOf v < 2 ^ 63 := Nat.mod_lt _ (by norm_num)

theorem magOf_ofSignMag (neg : Bool) {mag : Nat} (h : mag < 2 ^ 63) : magOf (ofSignMag neg mag) = mag := by
  rw [magOf, ofSignMag_toNat neg h]
  cases neg <;> simp <;> omega

theorem ofSignMag_eq (v : F64) : ofSignMag (signBit v) (magOf v) = v := by
  apply BitVec.eq_of_toNat_eq
  have hv := F64.toNat_lt v
  rw [ofSignMag_toNat _ (magOf_lt v), signBit_iff, magOf]
  by_cases h : 2 ^ 63 ≤ v.toNat
  · simp only [h, decide_true, if_true]
    omega
  · simp only [h, decide_false, Bool.false_eq_true, if_false]
    omega

/-- The fields are those of the low 63 bits. -/
theorem expField_eq_magOf (v : F64) : (expField v).toNat = magOf v / 2 ^ 52 := by
  rw [expField_toNat, magOf]
  omega

theorem fracField_eq_magOf (v : F64) : (fracField v).toNat = magOf v % 2 ^ 52 := by
  rw [fracField_toNat, magOf]
  omega

/-! ## The classes -/

theorem isNaN_iff (v : F64) : isNaN v = true ↔ infMag < magOf v := by
  have e1 : (0x7FF : BitVec 11).toNat = 2047 := rfl
  have e2 : (0 : BitVec 52).toNat = 0 := rfl
  have h1 := expField_eq_magOf v
  have h2 := fracField_eq_magOf v
  have h3 := magOf_lt v
  simp only [isNaN, Bool.and_eq_true, beq_iff_eq, bne_iff_ne, infMag, ← BitVec.toNat_inj, ne_eq]
  simp only [h1, h2, e1, e2]
  omega

theorem isInf_iff (v : F64) : isInf v = true ↔ magOf v = infMag := by
  have e1 : (0x7FF : BitVec 11).toNat = 2047 := rfl
  have e2 : (0 : BitVec 52).toNat = 0 := rfl
  have h1 := expField_eq_magOf v
  have h2 := fracField_eq_magOf v
  have h3 := magOf_lt v
  simp only [isInf, Bool.and_eq_true, beq_iff_eq, infMag, ← BitVec.toNat_inj]
  simp only [h1, h2, e1, e2]
  omega

theorem isZero_iff (v : F64) : isZero v = true ↔ magOf v = 0 := by
  have e1 : (0 : BitVec 11).toNat = 0 := rfl
  have e2 : (0 : BitVec 52).toNat = 0 := rfl
  have h1 := expField_eq_magOf v
  have h2 := fracField_eq_magOf v
  simp only [isZero, Bool.and_eq_true, beq_iff_eq, ← BitVec.toNat_inj]
  simp only [h1, h2, e1, e2]
  omega

theorem isFinite_iff (v : F64) : isFinite v = true ↔ magOf v < infMag := by
  have h1 := isNaN_iff v
  have h2 := isInf_iff v
  simp only [isFinite, Bool.and_eq_true, Bool.not_eq_true', ← Bool.not_eq_true, h1, h2]
  omega

/-- How many units of 2^-1074 the magnitude of a finite pattern is worth. -/
def unitsOf (mag : Nat) : Nat := finiteUnits (mag / 2 ^ 52) (mag % 2 ^ 52)

theorem classify_of_nan {v : F64} (h : isNaN v = true) : classify v = .nan := by
  simp only [isNaN, Bool.and_eq_true, beq_iff_eq, bne_iff_ne] at h
  simp only [classify, if_pos h.1, if_neg h.2]

theorem classify_of_inf {v : F64} (h : isInf v = true) : classify v = .inf (signBit v) := by
  simp only [isInf, Bool.and_eq_true, beq_iff_eq] at h
  simp only [classify, if_pos h.1, if_pos h.2]

theorem classify_of_finite {v : F64} (h : isFinite v = true) :
    classify v = .finite (signBit v) (unitsOf (magOf v)) := by
  have hm := (isFinite_iff v).1 h
  have hne : expField v ≠ 0x7FF := by
    intro he
    have e : (expField v).toNat = 2047 := congrArg BitVec.toNat he
    rw [expField_eq_magOf] at e
    simp only [infMag] at hm
    omega
  simp only [classify, if_neg hne, unitsOf, ← expField_eq_magOf, ← fracField_eq_magOf]

/-- Every pattern is a NaN, an infinity or finite, and the class says which. -/
theorem classify_cases (v : F64) :
    (isNaN v = true ∧ classify v = .nan) ∨ (isInf v = true ∧ classify v = .inf (signBit v)) ∨
    (isFinite v = true ∧ classify v = .finite (signBit v) (unitsOf (magOf v))) := by
  by_cases hn : isNaN v = true
  · exact .inl ⟨hn, classify_of_nan hn⟩
  by_cases hi : isInf v = true
  · exact .inr (.inl ⟨hi, classify_of_inf hi⟩)
  · have hf : isFinite v = true := by simp [isFinite, hn, hi]
    exact .inr (.inr ⟨hf, classify_of_finite hf⟩)

theorem value_eq (v : F64) : value v = (signed (signBit v) (unitsOf (magOf v)) : ℚ) / 2 ^ 1074 := by
  rw [value, expField_eq_magOf, fracField_eq_magOf, unitsOf]

theorem infMag_lt : infMag < 2 ^ 63 := by norm_num [infMag]

/-! ## NaNs -/

/-- What `nanOf` gives is a NaN. -/
theorem isNaN_nanOf (p : Bool × Fin (0xFFFFFFFFFFFFE + 1)) : isNaN (nanOf p) = true := by
  have hp := p.2.isLt
  have hlt : infMag + (p.2.val + 1) < 2 ^ 63 := by
    simp only [infMag]
    omega
  rw [isNaN_iff, nanOf, magOf_ofSignMag _ hlt]
  omega

/-- Every NaN is one that `nanOf` gives: the free value is limited to nothing less than all NaNs (R88). -/
theorem nanOf_surjective {v : F64} (h : isNaN v = true) : ∃ p, nanOf p = v := by
  have hm := (isNaN_iff v).1 h
  have hlt := magOf_lt v
  have hb : magOf v - infMag - 1 < 0xFFFFFFFFFFFFE + 1 := by
    simp only [infMag] at *
    omega
  refine ⟨(signBit v, ⟨magOf v - infMag - 1, hb⟩), ?_⟩
  have e : infMag + (magOf v - infMag - 1 + 1) = magOf v := by omega
  simp only [nanOf, e, ofSignMag_eq]

theorem isNaN_nanResult (op : AluOp) (a b : F64) : isNaN (nanResult op a b) = true := isNaN_nanOf _

/-! ## Rounding -/

/-- What rounding to the nearest natural does, in naturals: within half, and at a half the even one. -/
theorem roundHalfEven_bounds (n : Nat) {d : Nat} (hd : 0 < d) :
    2 * n ≤ 2 * (roundHalfEven n d * d) + d ∧ 2 * (roundHalfEven n d * d) ≤ 2 * n + d ∧
    (2 * n = 2 * (roundHalfEven n d * d) + d → roundHalfEven n d % 2 = 0) ∧
    (2 * (roundHalfEven n d * d) = 2 * n + d → roundHalfEven n d % 2 = 0) := by
  have hq : n / d * d + n % d = n := by
    rw [Nat.mul_comm]
    exact Nat.div_add_mod n d
  have hr : n % d < d := Nat.mod_lt _ hd
  unfold roundHalfEven
  generalize n / d = q at hq ⊢
  generalize n % d = r at hq hr ⊢
  have hq1 : (q + 1) * d = q * d + d := by ring
  split
  · refine ⟨by omega, by omega, fun h => by omega, fun h => by omega⟩
  · split
    · rw [hq1]
      refine ⟨by omega, by omega, fun h => by omega, fun h => by omega⟩
    · rcases Nat.mod_two_eq_zero_or_one q with h2 | h2
      · rw [h2, Nat.add_zero]
        refine ⟨by omega, by omega, fun _ => h2, fun _ => h2⟩
      · rw [h2, hq1]
        refine ⟨by omega, by omega, fun _ => by omega, fun _ => by omega⟩

/-- The same in rationals. -/
theorem roundHalfEven_rat (n : Nat) {d : Nat} (hd : 0 < d) :
    (roundHalfEven n d : ℚ) - 1 / 2 ≤ (n : ℚ) / d ∧ (n : ℚ) / d ≤ (roundHalfEven n d : ℚ) + 1 / 2 ∧
    (|(n : ℚ) / d - roundHalfEven n d| = 1 / 2 → roundHalfEven n d % 2 = 0) := by
  obtain ⟨h1, h2, h3, h4⟩ := roundHalfEven_bounds n hd
  generalize roundHalfEven n d = m at *
  have hd' : (0 : ℚ) < d := by exact_mod_cast hd
  have h1' : 2 * (n : ℚ) ≤ 2 * (m * d) + d := by exact_mod_cast h1
  have h2' : 2 * ((m : ℚ) * d) ≤ 2 * n + d := by exact_mod_cast h2
  refine ⟨?_, ?_, fun h => ?_⟩
  · rw [le_div_iff₀ hd']
    linarith
  · rw [div_le_iff₀ hd']
    linarith
  · have hn : (n : ℚ) = (n : ℚ) / d * d := by field_simp
    rcases (abs_eq (by norm_num)).1 h with h | h
    · apply h3
      have : 2 * (n : ℚ) = 2 * (m * d) + d := by
        rw [hn, eq_add_of_sub_eq h]
        ring
      exact_mod_cast this
    · apply h4
      have : 2 * ((m : ℚ) * d) = 2 * n + d := by
        rw [hn, eq_add_of_sub_eq h]
        ring
      exact_mod_cast this

/-- An integer within half is nearest among integers, and another one as near lies at the half. -/
theorem nearest_int {x m : ℚ} (h1 : m - 1 / 2 ≤ x) (h2 : x ≤ m + 1 / 2) {j : ℚ} (hj : j ≤ m - 1 ∨ j = m ∨ m + 1 ≤ j) :
    |x - m| ≤ |x - j| ∧ (|x - m| = |x - j| → j ≠ m → |x - m| = 1 / 2) := by
  have hm : |x - m| ≤ 1 / 2 := abs_le.2 ⟨by linarith, by linarith⟩
  rcases hj with hj | rfl | hj
  · have : 1 / 2 ≤ |x - j| := le_trans (by linarith) (le_abs_self _)
    exact ⟨by linarith, fun h _ => by linarith⟩
  · exact ⟨le_refl _, fun _ h => absurd rfl h⟩
  · have : 1 / 2 ≤ |x - j| := le_trans (by linarith) (neg_abs_le (x - j) |> fun h => by linarith : -(x - j) ≤ |x - j|)
    exact ⟨by linarith, fun h _ => by linarith⟩

/-- The magnitude `k x 2^52 + m` is worth `m x 2^k` units. -/
theorem unitsOf_round {k m : Nat} (hm : m ≤ 2 ^ 53) (hk : k = 0 ∨ 2 ^ 52 ≤ m) :
    unitsOf (k * 2 ^ 52 + m) = m * 2 ^ k := by
  unfold unitsOf finiteUnits
  rcases Nat.lt_or_ge m (2 ^ 52) with h | h
  · obtain rfl : k = 0 := by omega
    rw [if_pos (by omega)]
    omega
  · rcases Nat.lt_or_ge m (2 ^ 53) with h' | h'
    · have he : (k * 2 ^ 52 + m) / 2 ^ 52 = k + 1 := by omega
      have hf : (k * 2 ^ 52 + m) % 2 ^ 52 = m - 2 ^ 52 := by omega
      rw [he, hf, if_neg (by omega), Nat.add_sub_cancel, Nat.add_sub_cancel' h]
    · obtain rfl : m = 2 ^ 53 := by omega
      have he : (k * 2 ^ 52 + 2 ^ 53) / 2 ^ 52 = k + 2 := by omega
      have hf : (k * 2 ^ 52 + 2 ^ 53) % 2 ^ 52 = 0 := by omega
      have hp : 52 + (k + 2 - 1) = 53 + k := by omega
      rw [he, hf, if_neg (by omega), Nat.add_zero, ← pow_add, ← pow_add, hp]

/-- A magnitude is worth a multiple of 2^k units, or less than 2^(52+k). -/
theorem unitsOf_multiple_or_small (mag k : Nat) :
    (∃ j, unitsOf mag = j * 2 ^ k) ∨ unitsOf mag < 2 ^ (52 + k) := by
  have hf : mag % 2 ^ 52 < 2 ^ 52 := Nat.mod_lt _ (by norm_num)
  unfold unitsOf finiteUnits
  generalize mag / 2 ^ 52 = e
  generalize mag % 2 ^ 52 = f at hf ⊢
  split
  · right
    exact lt_of_lt_of_le hf (Nat.pow_le_pow_right (by norm_num) (by omega))
  · rcases Nat.lt_or_ge (e - 1) k with h | h
    · right
      calc (2 ^ 52 + f) * 2 ^ (e - 1) < 2 ^ 53 * 2 ^ (e - 1) :=
            Nat.mul_lt_mul_of_pos_right (by omega) (by positivity)
        _ = 2 ^ (53 + (e - 1)) := by rw [← pow_add]
        _ ≤ 2 ^ (52 + k) := Nat.pow_le_pow_right (by norm_num) (by omega)
    · left
      refine ⟨(2 ^ 52 + f) * 2 ^ (e - 1 - k), ?_⟩
      rw [Nat.mul_assoc, ← pow_add]
      congr 2
      omega

/-- The binade shift `k` of `roundUnits`: `n / d` lies below 2^(53+k), and above 2^(52+k) unless `k` is 0. -/
theorem binade_bounds (n : Nat) {d : Nat} (hd : 0 < d) :
    n < 2 ^ (53 + ((n / d).log2 - 52)) * d ∧ ((n / d).log2 - 52 = 0 ∨ 2 ^ (52 + ((n / d).log2 - 52)) * d ≤ n) := by
  have hlt : n < (n / d + 1) * d := by
    have := Nat.lt_div_mul_add (a := n) hd
    rw [Nat.add_mul, Nat.one_mul]
    exact this
  have hle : n / d * d ≤ n := Nat.div_mul_le_self n d
  generalize n / d = q at *
  have hq : q < 2 ^ (q.log2 + 1) := Nat.lt_log2_self
  constructor
  · refine lt_of_lt_of_le hlt (Nat.mul_le_mul_right d ?_)
    calc q + 1 ≤ 2 ^ (q.log2 + 1) := hq
      _ ≤ 2 ^ (53 + (q.log2 - 52)) := Nat.pow_le_pow_right (by norm_num) (by omega)
  · rcases Nat.eq_zero_or_pos (q.log2 - 52) with h | h
    · exact .inl h
    · right
      have hq0 : q ≠ 0 := by
        rintro rfl
        simp at h
      have : 52 + (q.log2 - 52) = q.log2 := by omega
      rw [this]
      exact le_trans (Nat.mul_le_mul_right d (Nat.log2_self_le hq0)) hle

/-- The overflow threshold in units. -/
theorem overflowFrom_units : overflowFrom * 2 ^ 1074 = (2 ^ 53 - 1 / 2) * 2 ^ 2045 := by
  unfold overflowFrom
  have half : ∀ e : ℕ, (2 : ℚ) ^ e = 1 / 2 * 2 ^ (e + 1) := fun e => by
    rw [pow_succ]
    ring
  rw [sub_mul, ← pow_add, ← pow_add, sub_mul, ← pow_add, half (970 + 1074)]


/-- Among integers, and numbers below 2^52 where `x` is not, none is nearer to `x` than the integer within half. -/
theorem nearest_candidate {x z : ℚ} {m : ℕ} (h1 : (m : ℚ) - 1 / 2 ≤ x) (h2 : x ≤ (m : ℚ) + 1 / 2)
    (hz : (∃ j : ℤ, z = j) ∨ (z < 2 ^ 52 ∧ (2 : ℚ) ^ 52 ≤ x)) :
    |x - m| ≤ |x - z| ∧ (|x - m| = |x - z| → z ≠ m → |x - m| = 1 / 2) := by
  have hint : ∀ j : ℤ, (j : ℚ) ≤ (m : ℚ) - 1 ∨ (j : ℚ) = m ∨ (m : ℚ) + 1 ≤ j := by
    intro j
    rcases lt_trichotomy j (m : ℤ) with h | h | h
    · left
      have : ((j + 1 : ℤ) : ℚ) ≤ ((m : ℤ) : ℚ) := by exact_mod_cast h
      push_cast at this
      linarith
    · right
      left
      rw [h]
      simp
    · right
      right
      exact_mod_cast h
  rcases hz with ⟨j, rfl⟩ | ⟨hz, hx⟩
  · exact nearest_int h1 h2 (hint j)
  · have h := (nearest_int h1 h2 (hint (2 ^ 52))).1
    rw [show (((2 ^ 52 : ℤ)) : ℚ) = 2 ^ 52 by norm_num, abs_of_nonneg (sub_nonneg.2 hx)] at h
    have hxz : x - 2 ^ 52 < |x - z| := lt_of_lt_of_le (by linarith) (le_abs_self _)
    exact ⟨by linarith, fun he => by linarith⟩

/-- The value of a finite pattern as a signed number of steps of 2^k units: whole, or below 2^52. -/
theorem value_in_steps (neg : Bool) (k : ℕ) (c : F64) : ∃ z : ℚ,
    value c = (if neg then -1 else 1) * (z * 2 ^ k / 2 ^ 1074) ∧ ((∃ j : ℤ, z = j) ∨ z < 2 ^ 52 ∧ k ≠ 0) := by
  have hP : (0 : ℚ) < 2 ^ k := by positivity
  rw [value_eq]
  generalize (2 : ℚ) ^ 1074 = U
  rcases Nat.eq_zero_or_pos k with rfl | hk
  · refine ⟨if neg then -(signed (signBit c) (unitsOf (magOf c)) : ℚ) else signed (signBit c) (unitsOf (magOf c)), ?_,
      .inl ?_⟩
    · cases neg <;> simp only [Bool.false_eq_true, if_false, if_true, pow_zero] <;> ring
    · cases neg
      · exact ⟨signed (signBit c) (unitsOf (magOf c)), by simp⟩
      · exact ⟨-signed (signBit c) (unitsOf (magOf c)), by simp⟩
  · rcases unitsOf_multiple_or_small (magOf c) k with ⟨j, hj⟩ | hsmall
    · refine ⟨((if neg then -1 else 1) * (if signBit c then -1 else 1) * (j : ℤ) : ℤ), ?_, .inl ⟨_, rfl⟩⟩
      rw [hj, signed]
      cases neg <;> cases signBit c <;> simp only [Bool.false_eq_true, if_false, if_true] <;> push_cast <;> ring
    · refine ⟨(if neg then -1 else 1) * (signed (signBit c) (unitsOf (magOf c)) : ℚ) / 2 ^ k, ?_, .inr ⟨?_, by omega⟩⟩
      · rw [div_mul_cancel₀ _ hP.ne']
        cases neg <;> simp only [Bool.false_eq_true, if_false, if_true] <;> ring
      · rw [div_lt_iff₀ hP]
        have hs : ((unitsOf (magOf c) : ℕ) : ℚ) < 2 ^ 52 * 2 ^ k := by
          rw [← pow_add]
          exact_mod_cast hsmall
        have hn : (0 : ℚ) ≤ (unitsOf (magOf c) : ℕ) := Nat.cast_nonneg _
        cases neg <;> cases signBit c <;> simp [signed] <;> linarith

/-- `roundUnits` is roundTiesToEven (R84): a positive number of units `n / d`, with a sign, rounds as the rule says. -/
theorem roundUnits_roundsTo (neg : Bool) {n d : Nat} (hd : 0 < d) (hn : 0 < n) :
    RoundsTo ((if neg then -1 else 1) * ((n : ℚ) / d / 2 ^ 1074)) (roundUnits neg n d) := by
  have hdq : (0 : ℚ) < d := by exact_mod_cast hd
  have hnq : (0 : ℚ) < n := by exact_mod_cast hn
  obtain ⟨hup, hlow⟩ := binade_bounds n hd
  unfold roundUnits
  dsimp only
  generalize (n / d).log2 - 52 = k at hup hlow ⊢
  have hD : 0 < d * 2 ^ k := Nat.mul_pos hd (by positivity)
  obtain ⟨hm1, hm2, htie⟩ := roundHalfEven_rat n hD
  generalize roundHalfEven n (d * 2 ^ k) = m at hm1 hm2 htie ⊢
  -- `x` is the exact result in steps of 2^k units, `y` in units
  set x : ℚ := (n : ℚ) / ((d * 2 ^ k : ℕ) : ℚ) with hx
  set y : ℚ := (n : ℚ) / d with hy
  have hP : (0 : ℚ) < 2 ^ k := by positivity
  have hyx : y = x * 2 ^ k := by
    rw [hx, hy]
    push_cast
    field_simp
  have hy0 : 0 < y := div_pos hnq hdq
  have hxup : x < 2 ^ 53 := by
    have : (n : ℚ) < 2 ^ (53 + k) * d := by exact_mod_cast hup
    rw [hx, div_lt_iff₀ (by exact_mod_cast hD)]
    push_cast
    rw [pow_add] at this
    linarith
  have hxlow : k = 0 ∨ (2 : ℚ) ^ 52 ≤ x := by
    refine hlow.imp_right fun h => ?_
    have : (2 : ℚ) ^ (52 + k) * d ≤ n := by exact_mod_cast h
    rw [hx, le_div_iff₀ (by exact_mod_cast hD)]
    push_cast
    rw [pow_add] at this
    linarith
  have hm53 : m ≤ 2 ^ 53 := by
    by_contra hc
    have : ((2 ^ 53 + 1 : ℕ) : ℚ) ≤ m := by exact_mod_cast Nat.lt_of_not_le hc
    push_cast at this
    linarith
  have hm52 : k = 0 ∨ 2 ^ 52 ≤ m := by
    refine hxlow.imp_right fun h => ?_
    by_contra hc
    have : ((m + 1 : ℕ) : ℚ) ≤ ((2 ^ 52 : ℕ) : ℚ) := by exact_mod_cast Nat.lt_of_not_le hc
    push_cast at this
    linarith
  have hU : (0 : ℚ) < 2 ^ 1074 := by positivity
  have habs : |(if neg then -1 else 1) * (y / 2 ^ 1074)| = y / 2 ^ 1074 := by
    have : 0 < y / 2 ^ 1074 := div_pos hy0 hU
    cases neg
    · simp only [Bool.false_eq_true, if_false, one_mul]
      exact abs_of_pos this
    · simp only [if_true, neg_one_mul, abs_neg]
      exact abs_of_pos this
  have hsign : (decide ((if neg then -1 else 1) * (y / 2 ^ 1074) < 0)) = neg := by
    have : 0 < y / 2 ^ 1074 := div_pos hy0 hU
    cases neg
    · simp only [Bool.false_eq_true, if_false, one_mul, decide_eq_false_iff_not, not_lt]
      exact this.le
    · simp only [if_true, neg_one_mul, decide_eq_true_eq]
      exact neg_neg_of_pos this
  -- overflow happens exactly from the threshold on
  have hover : infMag ≤ k * 2 ^ 52 + m ↔ overflowFrom ≤ y / 2 ^ 1074 := by
    rw [le_div_iff₀ hU, overflowFrom_units, hyx]
    rcases Nat.lt_trichotomy k 2045 with hk | hk | hk
    · have h1 : ¬ infMag ≤ k * 2 ^ 52 + m := by
        simp only [infMag]
        omega
      have hpow : (2 : ℚ) ^ (k + 1) ≤ 2 ^ 2045 := pow_le_pow_right₀ (by norm_num) (by omega)
      have h2 : x * 2 ^ k < (2 ^ 53 - 1 / 2) * 2 ^ 2045 := by
        rw [pow_succ] at hpow
        calc x * 2 ^ k < 2 ^ 53 * 2 ^ k := mul_lt_mul_of_pos_right hxup hP
          _ = 2 ^ 52 * (2 ^ k * 2) := by ring
          _ ≤ 2 ^ 52 * 2 ^ 2045 := mul_le_mul_of_nonneg_left hpow (by norm_num)
          _ ≤ (2 ^ 53 - 1 / 2) * 2 ^ 2045 := mul_le_mul_of_nonneg_right (by norm_num) (by positivity)
      exact ⟨fun h => absurd h h1, fun h => absurd h (not_le.2 h2)⟩
    · subst hk
      rw [mul_le_mul_iff_left₀ hP]
      constructor
      · intro h
        have : m = 2 ^ 53 := by
          simp only [infMag] at h
          omega
        rw [this] at hm1
        push_cast at hm1
        exact hm1
      · intro h
        by_contra hc
        have hlt : m + 1 ≤ 2 ^ 53 := by
          simp only [infMag] at hc
          omega
        have hq : ((m + 1 : ℕ) : ℚ) ≤ ((2 ^ 53 : ℕ) : ℚ) := by exact_mod_cast hlt
        push_cast at hq
        have hxm : x - m = 1 / 2 := by linarith
        have hmq : (m : ℚ) + 1 = 2 ^ 53 := by linarith
        have hmn : m + 1 = 2 ^ 53 := by exact_mod_cast hmq
        have := htie (by rw [hxm, abs_of_pos (by norm_num)])
        omega
    · have h1 : infMag ≤ k * 2 ^ 52 + m := by
        have h := hm52.resolve_left (by omega)
        simp only [infMag]
        omega
      have hpow : (2 : ℚ) ^ 2046 ≤ 2 ^ k := pow_le_pow_right₀ (by norm_num) (by omega)
      have h2 : (2 ^ 53 - 1 / 2) * 2 ^ 2045 ≤ x * 2 ^ k := by
        have h := hxlow.resolve_left (by omega)
        calc (2 ^ 53 - 1 / 2) * 2 ^ 2045 ≤ 2 ^ 53 * (2 : ℚ) ^ 2045 :=
              mul_le_mul_of_nonneg_right (by norm_num) (by positivity)
          _ = 2 ^ 52 * 2 ^ 2046 := by rw [← pow_add, ← pow_add]
          _ ≤ x * 2 ^ k := mul_le_mul h hpow (by positivity) (le_trans (by norm_num) h)
      exact ⟨fun _ => h2, fun _ => h1⟩
  have hmag : min (k * 2 ^ 52 + m) infMag < 2 ^ 63 := lt_of_le_of_lt (Nat.min_le_right _ _) infMag_lt
  refine ⟨?_, ?_, ?_⟩
  · rw [signBit_ofSignMag _ hmag, hsign]
  · rw [habs, ← hover]
    intro h
    rw [isInf_iff, magOf_ofSignMag _ hmag]
    exact Nat.min_eq_right h
  · rw [habs, ← not_le, ← hover, not_le]
    intro h
    have hmin : min (k * 2 ^ 52 + m) infMag = k * 2 ^ 52 + m := Nat.min_eq_left h.le
    rw [hmin] at hmag ⊢
    refine ⟨?_, fun c hc => ?_⟩
    · rw [isFinite_iff, magOf_ofSignMag _ hmag]
      exact h
    · obtain ⟨z, hz, hcase⟩ := value_in_steps neg k c
      have hr : value (ofSignMag neg (k * 2 ^ 52 + m)) = (if neg then -1 else 1) * ((m : ℚ) * 2 ^ k / 2 ^ 1074) := by
        rw [value_eq, signBit_ofSignMag _ hmag, magOf_ofSignMag _ hmag, unitsOf_round hm53 hm52, signed]
        generalize (2 : ℚ) ^ 1074 = U
        cases neg <;> simp only [Bool.false_eq_true, if_false, if_true] <;> push_cast <;> ring
      have hdist : ∀ w : ℚ, |(if neg then -1 else 1) * (y / 2 ^ 1074) - (if neg then -1 else 1) * (w * 2 ^ k / 2 ^ 1074)| =
          |x - w| * (2 ^ k / 2 ^ 1074) := by
        intro w
        have hs : (0 : ℚ) < 2 ^ k / 2 ^ 1074 := div_pos hP hU
        have h1 : |(if neg then (-1 : ℚ) else 1)| = 1 := by cases neg <;> simp
        have e : (if neg then -1 else 1) * (y / 2 ^ 1074) - (if neg then -1 else 1) * (w * 2 ^ k / 2 ^ 1074) =
            (if neg then -1 else 1) * ((x - w) * (2 ^ k / 2 ^ 1074)) := by
          rw [hyx]
          generalize (2 : ℚ) ^ 1074 = U
          ring
        rw [e, abs_mul, h1, one_mul, abs_mul, abs_of_pos hs]
      have hs : (0 : ℚ) < 2 ^ k / 2 ^ 1074 := div_pos hP hU
      obtain ⟨hle, heq⟩ := nearest_candidate hm1 hm2
        (hcase.imp_right fun h => ⟨h.1, hxlow.resolve_left h.2⟩)
      rw [hr, hz, hdist, hdist]
      refine ⟨mul_le_mul_of_nonneg_right hle hs.le, fun he hne => ?_⟩
      have he' : |x - m| = |x - z| := mul_right_cancel₀ hs.ne' he
      have hzm : z ≠ m := fun h => hne (by rw [h])
      have hmod := htie (heq he' hzm)
      have hpar : (ofSignMag neg (k * 2 ^ 52 + m)).toNat % 2 = 0 := by
        have h := ofSignMag_toNat neg hmag
        cases neg
        · rw [if_neg Bool.false_ne_true] at h
          omega
        · rw [if_pos rfl] at h
          omega
      rw [BitVec.getLsbD, Nat.testBit_zero, hpar]
      rfl

end Sys2Proof.Machine
end

