-- ==== Sys2Proof/Laws/State.lean ====
section
/-! SUPPORT. What each field of the state is after each named update: one lemma for each field and update, so that no proof
unfolds a record. -/

namespace Sys2Proof.Machine

@[simp] theorem State.setStack_r1 (s : State) (st : List F64) : (s.setStack st).r1 = s.r1 := rfl
@[simp] theorem State.setStack_r2 (s : State) (st : List F64) : (s.setStack st).r2 = s.r2 := rfl
@[simp] theorem State.setStack_pc (s : State) (st : List F64) : (s.setStack st).pc = s.pc := rfl
@[simp] theorem State.setStack_stack (s : State) (st : List F64) : (s.setStack st).stack = st := rfl
@[simp] theorem State.setStack_status (s : State) (st : List F64) : (s.setStack st).status = s.status := rfl
@[simp] theorem State.setStack_faultCode (s : State) (st : List F64) : (s.setStack st).faultCode = s.faultCode := rfl
@[simp] theorem State.setStack_faultPc (s : State) (st : List F64) : (s.setStack st).faultPc = s.faultPc := rfl
@[simp] theorem State.setStack_faultByte (s : State) (st : List F64) : (s.setStack st).faultByte = s.faultByte := rfl
@[simp] theorem State.setStack_out (s : State) (st : List F64) : (s.setStack st).out = s.out := rfl
@[simp] theorem State.setStack_stream (s : State) (st : List F64) : (s.setStack st).stream = s.stream := rfl
@[simp] theorem State.setStack_streamLen (s : State) (st : List F64) : (s.setStack st).streamLen = s.streamLen := rfl

@[simp] theorem State.push_r1 (s : State) (v : F64) : (s.push v).r1 = s.r1 := rfl
@[simp] theorem State.push_r2 (s : State) (v : F64) : (s.push v).r2 = s.r2 := rfl
@[simp] theorem State.push_pc (s : State) (v : F64) : (s.push v).pc = s.pc := rfl
@[simp] theorem State.push_stack (s : State) (v : F64) : (s.push v).stack = v :: s.stack := rfl
@[simp] theorem State.push_status (s : State) (v : F64) : (s.push v).status = s.status := rfl
@[simp] theorem State.push_faultCode (s : State) (v : F64) : (s.push v).faultCode = s.faultCode := rfl
@[simp] theorem State.push_faultPc (s : State) (v : F64) : (s.push v).faultPc = s.faultPc := rfl
@[simp] theorem State.push_faultByte (s : State) (v : F64) : (s.push v).faultByte = s.faultByte := rfl
@[simp] theorem State.push_out (s : State) (v : F64) : (s.push v).out = s.out := rfl
@[simp] theorem State.push_stream (s : State) (v : F64) : (s.push v).stream = s.stream := rfl
@[simp] theorem State.push_streamLen (s : State) (v : F64) : (s.push v).streamLen = s.streamLen := rfl

@[simp] theorem State.emit_r1 (s : State) (v : F64) : (s.emit v).r1 = s.r1 := rfl
@[simp] theorem State.emit_r2 (s : State) (v : F64) : (s.emit v).r2 = s.r2 := rfl
@[simp] theorem State.emit_pc (s : State) (v : F64) : (s.emit v).pc = s.pc := rfl
@[simp] theorem State.emit_stack (s : State) (v : F64) : (s.emit v).stack = s.stack := rfl
@[simp] theorem State.emit_status (s : State) (v : F64) : (s.emit v).status = s.status := rfl
@[simp] theorem State.emit_faultCode (s : State) (v : F64) : (s.emit v).faultCode = s.faultCode := rfl
@[simp] theorem State.emit_faultPc (s : State) (v : F64) : (s.emit v).faultPc = s.faultPc := rfl
@[simp] theorem State.emit_faultByte (s : State) (v : F64) : (s.emit v).faultByte = s.faultByte := rfl
@[simp] theorem State.emit_out (s : State) (v : F64) : (s.emit v).out = s.out ++ [v] := rfl
@[simp] theorem State.emit_stream (s : State) (v : F64) : (s.emit v).stream = s.stream := rfl
@[simp] theorem State.emit_streamLen (s : State) (v : F64) : (s.emit v).streamLen = s.streamLen := rfl

@[simp] theorem State.setPc_r1 (s : State) (t : Offset) : (s.setPc t).r1 = s.r1 := rfl
@[simp] theorem State.setPc_r2 (s : State) (t : Offset) : (s.setPc t).r2 = s.r2 := rfl
@[simp] theorem State.setPc_pc (s : State) (t : Offset) : (s.setPc t).pc = t := rfl
@[simp] theorem State.setPc_stack (s : State) (t : Offset) : (s.setPc t).stack = s.stack := rfl
@[simp] theorem State.setPc_status (s : State) (t : Offset) : (s.setPc t).status = s.status := rfl
@[simp] theorem State.setPc_faultCode (s : State) (t : Offset) : (s.setPc t).faultCode = s.faultCode := rfl
@[simp] theorem State.setPc_faultPc (s : State) (t : Offset) : (s.setPc t).faultPc = s.faultPc := rfl
@[simp] theorem State.setPc_faultByte (s : State) (t : Offset) : (s.setPc t).faultByte = s.faultByte := rfl
@[simp] theorem State.setPc_out (s : State) (t : Offset) : (s.setPc t).out = s.out := rfl
@[simp] theorem State.setPc_stream (s : State) (t : Offset) : (s.setPc t).stream = s.stream := rfl
@[simp] theorem State.setPc_streamLen (s : State) (t : Offset) : (s.setPc t).streamLen = s.streamLen := rfl

@[simp] theorem State.advance_r1 (s : State) (n : Offset) : (s.advance n).r1 = s.r1 := rfl
@[simp] theorem State.advance_r2 (s : State) (n : Offset) : (s.advance n).r2 = s.r2 := rfl
@[simp] theorem State.advance_pc (s : State) (n : Offset) : (s.advance n).pc = s.pc + n := rfl
@[simp] theorem State.advance_stack (s : State) (n : Offset) : (s.advance n).stack = s.stack := rfl
@[simp] theorem State.advance_status (s : State) (n : Offset) : (s.advance n).status = s.status := rfl
@[simp] theorem State.advance_faultCode (s : State) (n : Offset) : (s.advance n).faultCode = s.faultCode := rfl
@[simp] theorem State.advance_faultPc (s : State) (n : Offset) : (s.advance n).faultPc = s.faultPc := rfl
@[simp] theorem State.advance_faultByte (s : State) (n : Offset) : (s.advance n).faultByte = s.faultByte := rfl
@[simp] theorem State.advance_out (s : State) (n : Offset) : (s.advance n).out = s.out := rfl
@[simp] theorem State.advance_stream (s : State) (n : Offset) : (s.advance n).stream = s.stream := rfl
@[simp] theorem State.advance_streamLen (s : State) (n : Offset) : (s.advance n).streamLen = s.streamLen := rfl

@[simp] theorem State.haltSuccess_r1 (s : State) : (s.haltSuccess).r1 = s.r1 := rfl
@[simp] theorem State.haltSuccess_r2 (s : State) : (s.haltSuccess).r2 = s.r2 := rfl
@[simp] theorem State.haltSuccess_pc (s : State) : (s.haltSuccess).pc = s.pc := rfl
@[simp] theorem State.haltSuccess_stack (s : State) : (s.haltSuccess).stack = s.stack := rfl
@[simp] theorem State.haltSuccess_status (s : State) : (s.haltSuccess).status = .haltedSuccess := rfl
@[simp] theorem State.haltSuccess_faultCode (s : State) : (s.haltSuccess).faultCode = s.faultCode := rfl
@[simp] theorem State.haltSuccess_faultPc (s : State) : (s.haltSuccess).faultPc = s.faultPc := rfl
@[simp] theorem State.haltSuccess_faultByte (s : State) : (s.haltSuccess).faultByte = s.faultByte := rfl
@[simp] theorem State.haltSuccess_out (s : State) : (s.haltSuccess).out = s.out := rfl
@[simp] theorem State.haltSuccess_stream (s : State) : (s.haltSuccess).stream = s.stream := rfl
@[simp] theorem State.haltSuccess_streamLen (s : State) : (s.haltSuccess).streamLen = s.streamLen := rfl

@[simp] theorem State.raise_r1 (s : State) (f : Failure) : (s.raise f).r1 = s.r1 := rfl
@[simp] theorem State.raise_r2 (s : State) (f : Failure) : (s.raise f).r2 = s.r2 := rfl
@[simp] theorem State.raise_pc (s : State) (f : Failure) : (s.raise f).pc = s.pc := rfl
@[simp] theorem State.raise_stack (s : State) (f : Failure) : (s.raise f).stack = s.stack := rfl
@[simp] theorem State.raise_status (s : State) (f : Failure) : (s.raise f).status = .haltedFailure := rfl
@[simp] theorem State.raise_faultCode (s : State) (f : Failure) : (s.raise f).faultCode = failureCode f := rfl
@[simp] theorem State.raise_faultPc (s : State) (f : Failure) : (s.raise f).faultPc = s.pc := rfl
@[simp] theorem State.raise_faultByte (s : State) (f : Failure) : (s.raise f).faultByte = failureByte f := rfl
@[simp] theorem State.raise_out (s : State) (f : Failure) : (s.raise f).out = s.out := rfl
@[simp] theorem State.raise_stream (s : State) (f : Failure) : (s.raise f).stream = s.stream := rfl
@[simp] theorem State.raise_streamLen (s : State) (f : Failure) : (s.raise f).streamLen = s.streamLen := rfl

@[simp] theorem State.setReg_r1_r1 (s : State) (v : F64) : (s.setReg .r1 v).r1 = v := rfl
@[simp] theorem State.setReg_r1_r2 (s : State) (v : F64) : (s.setReg .r1 v).r2 = s.r2 := rfl
@[simp] theorem State.setReg_r1_pc (s : State) (v : F64) : (s.setReg .r1 v).pc = s.pc := rfl
@[simp] theorem State.setReg_r1_stack (s : State) (v : F64) : (s.setReg .r1 v).stack = s.stack := rfl
@[simp] theorem State.setReg_r1_status (s : State) (v : F64) : (s.setReg .r1 v).status = s.status := rfl
@[simp] theorem State.setReg_r1_faultCode (s : State) (v : F64) : (s.setReg .r1 v).faultCode = s.faultCode := rfl
@[simp] theorem State.setReg_r1_faultPc (s : State) (v : F64) : (s.setReg .r1 v).faultPc = s.faultPc := rfl
@[simp] theorem State.setReg_r1_faultByte (s : State) (v : F64) : (s.setReg .r1 v).faultByte = s.faultByte := rfl
@[simp] theorem State.setReg_r1_out (s : State) (v : F64) : (s.setReg .r1 v).out = s.out := rfl
@[simp] theorem State.setReg_r1_stream (s : State) (v : F64) : (s.setReg .r1 v).stream = s.stream := rfl
@[simp] theorem State.setReg_r1_streamLen (s : State) (v : F64) : (s.setReg .r1 v).streamLen = s.streamLen := rfl

@[simp] theorem State.setReg_r2_r1 (s : State) (v : F64) : (s.setReg .r2 v).r1 = s.r1 := rfl
@[simp] theorem State.setReg_r2_r2 (s : State) (v : F64) : (s.setReg .r2 v).r2 = v := rfl
@[simp] theorem State.setReg_r2_pc (s : State) (v : F64) : (s.setReg .r2 v).pc = s.pc := rfl
@[simp] theorem State.setReg_r2_stack (s : State) (v : F64) : (s.setReg .r2 v).stack = s.stack := rfl
@[simp] theorem State.setReg_r2_status (s : State) (v : F64) : (s.setReg .r2 v).status = s.status := rfl
@[simp] theorem State.setReg_r2_faultCode (s : State) (v : F64) : (s.setReg .r2 v).faultCode = s.faultCode := rfl
@[simp] theorem State.setReg_r2_faultPc (s : State) (v : F64) : (s.setReg .r2 v).faultPc = s.faultPc := rfl
@[simp] theorem State.setReg_r2_faultByte (s : State) (v : F64) : (s.setReg .r2 v).faultByte = s.faultByte := rfl
@[simp] theorem State.setReg_r2_out (s : State) (v : F64) : (s.setReg .r2 v).out = s.out := rfl
@[simp] theorem State.setReg_r2_stream (s : State) (v : F64) : (s.setReg .r2 v).stream = s.stream := rfl
@[simp] theorem State.setReg_r2_streamLen (s : State) (v : F64) : (s.setReg .r2 v).streamLen = s.streamLen := rfl

@[simp] theorem State.setReg_pc (s : State) (r : Reg) (v : F64) : (s.setReg r v).pc = s.pc := by cases r <;> rfl
@[simp] theorem State.setReg_stack (s : State) (r : Reg) (v : F64) : (s.setReg r v).stack = s.stack := by cases r <;> rfl
@[simp] theorem State.setReg_status (s : State) (r : Reg) (v : F64) : (s.setReg r v).status = s.status := by cases r <;> rfl
@[simp] theorem State.setReg_faultCode (s : State) (r : Reg) (v : F64) : (s.setReg r v).faultCode = s.faultCode := by cases r <;> rfl
@[simp] theorem State.setReg_faultPc (s : State) (r : Reg) (v : F64) : (s.setReg r v).faultPc = s.faultPc := by cases r <;> rfl
@[simp] theorem State.setReg_faultByte (s : State) (r : Reg) (v : F64) : (s.setReg r v).faultByte = s.faultByte := by cases r <;> rfl
@[simp] theorem State.setReg_out (s : State) (r : Reg) (v : F64) : (s.setReg r v).out = s.out := by cases r <;> rfl
@[simp] theorem State.setReg_stream (s : State) (r : Reg) (v : F64) : (s.setReg r v).stream = s.stream := by cases r <;> rfl
@[simp] theorem State.setReg_streamLen (s : State) (r : Reg) (v : F64) : (s.setReg r v).streamLen = s.streamLen := by cases r <;> rfl

@[simp] theorem State.reset_r1 : State.reset.r1 = 0 := rfl
@[simp] theorem State.reset_r2 : State.reset.r2 = 0 := rfl
@[simp] theorem State.reset_pc : State.reset.pc = 0 := rfl
@[simp] theorem State.reset_stack : State.reset.stack = [] := rfl
@[simp] theorem State.reset_status : State.reset.status = .running := rfl
@[simp] theorem State.reset_faultCode : State.reset.faultCode = .none := rfl
@[simp] theorem State.reset_faultPc : State.reset.faultPc = 0 := rfl
@[simp] theorem State.reset_faultByte : State.reset.faultByte = 0 := rfl
@[simp] theorem State.reset_out : State.reset.out = [] := rfl
@[simp] theorem State.reset_stream : State.reset.stream = [] := rfl
@[simp] theorem State.reset_streamLen : State.reset.streamLen = 0 := rfl

@[simp] theorem State.resetWith_r1 (s : State) (m : Memory) (len : Offset) : (s.resetWith m len).r1 = 0 := rfl
@[simp] theorem State.resetWith_r2 (s : State) (m : Memory) (len : Offset) : (s.resetWith m len).r2 = 0 := rfl
@[simp] theorem State.resetWith_pc (s : State) (m : Memory) (len : Offset) : (s.resetWith m len).pc = 0 := rfl
@[simp] theorem State.resetWith_stack (s : State) (m : Memory) (len : Offset) : (s.resetWith m len).stack = [] := rfl
@[simp] theorem State.resetWith_status (s : State) (m : Memory) (len : Offset) : (s.resetWith m len).status = .running := rfl
@[simp] theorem State.resetWith_faultCode (s : State) (m : Memory) (len : Offset) : (s.resetWith m len).faultCode = .none := rfl
@[simp] theorem State.resetWith_faultPc (s : State) (m : Memory) (len : Offset) : (s.resetWith m len).faultPc = 0 := rfl
@[simp] theorem State.resetWith_faultByte (s : State) (m : Memory) (len : Offset) : (s.resetWith m len).faultByte = 0 := rfl
@[simp] theorem State.resetWith_out (s : State) (m : Memory) (len : Offset) : (s.resetWith m len).out = [] := rfl
@[simp] theorem State.resetWith_stream (s : State) (m : Memory) (len : Offset) : (s.resetWith m len).stream = m := rfl
@[simp] theorem State.resetWith_streamLen (s : State) (m : Memory) (len : Offset) : (s.resetWith m len).streamLen = len := rfl

@[simp] theorem placeAtPc_r1 (s : State) (bs : List Byte) : (placeAtPc s bs).r1 = s.r1 := rfl
@[simp] theorem placeAtPc_r2 (s : State) (bs : List Byte) : (placeAtPc s bs).r2 = s.r2 := rfl
@[simp] theorem placeAtPc_pc (s : State) (bs : List Byte) : (placeAtPc s bs).pc = s.pc := rfl
@[simp] theorem placeAtPc_stack (s : State) (bs : List Byte) : (placeAtPc s bs).stack = s.stack := rfl
@[simp] theorem placeAtPc_status (s : State) (bs : List Byte) : (placeAtPc s bs).status = .running := rfl
@[simp] theorem placeAtPc_faultCode (s : State) (bs : List Byte) : (placeAtPc s bs).faultCode = .none := rfl
@[simp] theorem placeAtPc_faultPc (s : State) (bs : List Byte) : (placeAtPc s bs).faultPc = 0 := rfl
@[simp] theorem placeAtPc_faultByte (s : State) (bs : List Byte) : (placeAtPc s bs).faultByte = 0 := rfl
@[simp] theorem placeAtPc_out (s : State) (bs : List Byte) : (placeAtPc s bs).out = s.out := rfl

@[simp] theorem State.getReg_r1 (s : State) : s.getReg .r1 = s.r1 := rfl
@[simp] theorem State.getReg_r2 (s : State) : s.getReg .r2 = s.r2 := rfl

/-- A register written reads as what was written; the other keeps its value (spec/44 R105). -/
theorem State.getReg_setReg (s : State) (r q : Reg) (v : F64) :
    (s.setReg r v).getReg q = if q = r then v else s.getReg q := by
  cases r <;> cases q <;> rfl

/-- The registers are NREG in number (spec/00_scope R5) and each is listed once. -/
theorem Reg.all_length : Reg.all.length = Config.nreg := rfl
theorem Reg.mem_all (r : Reg) : r ∈ Reg.all := by cases r <;> decide
theorem Reg.all_nodup : Reg.all.Nodup := by decide

/-- SP_WIDTH bits hold every depth up to STACK_CAPACITY (R5, R20). -/
theorem State.spBits_toNat {s : State} (h : s.sp ≤ Config.stackCapacity) : s.spBits.toNat = s.sp := by
  have hc : Config.stackCapacity < 2 ^ Config.spWidth := by decide
  exact BitVec.toNat_ofNat .. |>.trans (Nat.mod_eq_of_lt (h.trans_lt hc))

/-- `sp` counts what the stack holds (R20). -/
theorem State.sp_eq_length (s : State) : s.sp = s.stack.length := rfl

@[simp] theorem State.sp_setStack (s : State) (st : List F64) : (s.setStack st).sp = st.length := rfl
@[simp] theorem State.sp_push (s : State) (v : F64) : (s.push v).sp = s.sp + 1 := rfl
@[simp] theorem State.sp_emit (s : State) (v : F64) : (s.emit v).sp = s.sp := rfl
@[simp] theorem State.sp_setPc (s : State) (t : Offset) : (s.setPc t).sp = s.sp := rfl
@[simp] theorem State.sp_advance (s : State) (n : Offset) : (s.advance n).sp = s.sp := rfl
@[simp] theorem State.sp_haltSuccess (s : State) : s.haltSuccess.sp = s.sp := rfl
@[simp] theorem State.sp_raise (s : State) (f : Failure) : (s.raise f).sp = s.sp := rfl
@[simp] theorem State.sp_setReg (s : State) (r : Reg) (v : F64) : (s.setReg r v).sp = s.sp := by cases r <;> rfl

/-- The read port depends on the stream and its length alone (R29). -/
theorem imemRead_congr (s t : State) (h : t.stream = s.stream) (hl : t.streamLen = s.streamLen) :
    imemRead t = imemRead s := by
  funext a
  simp only [imemRead, h, hl]

end Sys2Proof.Machine
end

