-- ==== Sys2Proof/Laws/Forms.lean ====
section
/-! SUPPORT. Everything each operand form can do, said once. -/

namespace Sys2Proof.Machine

/-- A push with room. -/
theorem pushForm_of_room {v : F64} {len : Offset} {s : State} (h : s.sp < Config.stackCapacity) :
    pushForm v len s = (s.push v).advance len := by
  unfold pushForm
  rw [if_neg (by omega)]

/-- A push with no room. -/
theorem pushForm_of_full {v : F64} {len : Offset} {s : State} (h : Config.stackCapacity ≤ s.sp) :
    pushForm v len s = s.raise .stackOverflow := by
  unfold pushForm
  rw [if_pos (by omega)]

/-- A push either completes with room or overflows without it. -/
theorem pushForm_cases (v : F64) (len : Offset) (s : State) :
    (s.sp < Config.stackCapacity ∧ pushForm v len s = (s.push v).advance len) ∨
    (Config.stackCapacity ≤ s.sp ∧ pushForm v len s = s.raise .stackOverflow) := by
  rcases Nat.lt_or_ge s.sp Config.stackCapacity with h | h
  · exact .inl ⟨h, pushForm_of_room h⟩
  · exact .inr ⟨h, pushForm_of_full h⟩

/-- A pop either takes the top or underflows on an empty stack. -/
theorem popForm_cases (use : State → F64 → State) (s : State) :
    (∃ v rest, s.stack = v :: rest ∧ popForm use s = (use (s.setStack rest) v).advance 1) ∨
    (s.stack = [] ∧ popForm use s = s.raise .stackUnderflow) := by
  unfold popForm
  cases h : s.stack with
  | nil => exact .inr ⟨rfl, rfl⟩
  | cons v rest => exact .inl ⟨v, rest, rfl, rfl⟩

/-- NEG's form either replaces the top or underflows on an empty stack. -/
theorem unaryForm_cases (f : F64 → F64) (s : State) :
    (∃ a rest, s.stack = a :: rest ∧ unaryForm f s = (s.setStack (f a :: rest)).advance 1) ∨
    (s.stack = [] ∧ unaryForm f s = s.raise .stackUnderflow) := by
  unfold unaryForm
  cases h : s.stack with
  | nil => exact .inr ⟨rfl, rfl⟩
  | cons a rest => exact .inl ⟨a, rest, rfl, rfl⟩

/-- A binary form completes, or raises what its test of the right operand says, or underflows below two values. -/
theorem binaryForm_cases (test : F64 → Option Failure) (op : F64 → F64 → F64) (s : State) :
    (∃ b a rest, s.stack = b :: a :: rest ∧ test b = none ∧
      binaryForm test op s = (s.setStack (op a b :: rest)).advance 1) ∨
    (∃ b a rest f, s.stack = b :: a :: rest ∧ test b = some f ∧ binaryForm test op s = s.raise f) ∨
    (s.sp < 2 ∧ binaryForm test op s = s.raise .stackUnderflow) := by
  unfold binaryForm State.sp
  rcases h : s.stack with _ | ⟨b, _ | ⟨a, rest⟩⟩
  · exact .inr (.inr ⟨by simp, rfl⟩)
  · exact .inr (.inr ⟨by simp, rfl⟩)
  · cases ht : test b with
    | none => exact .inl ⟨b, a, rest, rfl, ht, by simp [ht]⟩
    | some f => exact .inr (.inl ⟨b, a, rest, f, rfl, ht, by simp [ht]⟩)

/-- A jump writes `pc` and nothing else, taken or not. -/
theorem jumpForm_eq (rel : F64 → F64 → Bool) (addr : Offset) (s : State) :
    jumpForm rel addr s = { s with pc := if rel s.r1 s.r2 then addr else s.pc + 5 } := by
  show (if rel s.r1 s.r2 then s.setPc addr else s.advance 5) = _
  cases rel s.r1 s.r2 <;> rfl

/-- A jump goes to its target or past its operand. -/
theorem jumpForm_cases (rel : F64 → F64 → Bool) (addr : Offset) (s : State) :
    (rel s.r1 s.r2 = true ∧ jumpForm rel addr s = s.setPc addr) ∨
    (rel s.r1 s.r2 = false ∧ jumpForm rel addr s = s.advance 5) := by
  by_cases h : rel s.r1 s.r2 = true
  · exact .inl ⟨h, by simp [jumpForm, h]⟩
  · exact .inr ⟨by simpa using h, by simp [jumpForm, h]⟩

end Sys2Proof.Machine
end

