-- ==== Sys2Proof/Laws/Memory.lean ====
section
/-! SUPPORT. The instruction stream as data: read after write, and that every memory operation keeps the canonical form. -/

namespace Sys2Proof.Machine

theorem Memory.get_nil (a : Nat) : Memory.get [] a = Memory.unlisted := rfl

/-- An offset below every listed one reads as unlisted. -/
theorem Memory.get_eq_unlisted_of_lt {m : Memory} {a : Nat} (h : ∀ p ∈ m, a < p.1) :
    Memory.get m a = Memory.unlisted := by
  induction m with
  | nil => rfl
  | cons p m ih =>
    have hp := h p (by simp)
    simp only [Memory.get]
    rw [if_neg (by omega)]
    exact ih fun q hq => h q (by simp [hq])

theorem Memory.wf_nil : Memory.wf [] := ⟨List.Pairwise.nil, by simp⟩

theorem Memory.wf_cons {p : Host.Cell} {m : Memory} :
    Memory.wf (p :: m) ↔ (∀ q ∈ m, p.1 < q.1) ∧ p.2 ≠ Memory.unlisted ∧ Memory.wf m := by
  simp only [Memory.wf, List.pairwise_cons, List.mem_cons, forall_eq_or_imp]
  tauto

/-- What a write can leave in the listing: what was there, and the pair written. -/
theorem Memory.mem_set {m : Memory} {a : Nat} {v : Byte} {p : Host.Cell} (h : p ∈ Memory.set m a v) :
    p ∈ m ∨ p = (a, v) := by
  induction m with
  | nil =>
    simp only [Memory.set] at h
    split at h <;> simp_all
  | cons q m ih =>
    obtain ⟨a', b⟩ := q
    simp only [Memory.set] at h
    split at h
    · split at h
      · exact .inl h
      · rcases List.mem_cons.1 h with h | h
        · exact .inr h
        · exact .inl h
    · split at h
      · split at h
        · exact .inl (List.mem_cons_of_mem _ h)
        · rcases List.mem_cons.1 h with h | h
          · exact .inr h
          · exact .inl (List.mem_cons_of_mem _ h)
      · rcases List.mem_cons.1 h with h | h
        · exact .inl (h ▸ List.mem_cons_self)
        · rcases ih h with h | h
          · exact .inl (List.mem_cons_of_mem _ h)
          · exact .inr h

/-- A write keeps the canonical form. -/
theorem Memory.wf_set {m : Memory} (a : Nat) (v : Byte) (h : Memory.wf m) : Memory.wf (Memory.set m a v) := by
  induction m with
  | nil =>
    simp only [Memory.set]
    split
    · exact Memory.wf_nil
    · rename_i hv
      exact Memory.wf_cons.2 ⟨by simp, hv, Memory.wf_nil⟩
  | cons q m ih =>
    obtain ⟨a', b⟩ := q
    obtain ⟨hlt, hb, hm⟩ := Memory.wf_cons.1 h
    simp only [Memory.set]
    split
    · rename_i hlt'
      split
      · exact h
      · rename_i hv
        refine Memory.wf_cons.2 ⟨fun p hp => ?_, hv, h⟩
        rcases List.mem_cons.1 hp with rfl | hp
        · exact hlt'
        · exact Nat.lt_trans hlt' (hlt p hp)
    · split
      · rename_i heq
        split
        · exact hm
        · rename_i hv
          exact Memory.wf_cons.2 ⟨fun p hp => heq ▸ hlt p hp, hv, hm⟩
      · rename_i hn hne
        refine Memory.wf_cons.2 ⟨fun p hp => ?_, hb, ih hm⟩
        rcases Memory.mem_set hp with hp | rfl
        · exact hlt p hp
        · show a' < a
          omega

/-- Read after write, at the same offset. -/
theorem Memory.get_set_same {m : Memory} (a : Nat) (v : Byte) (h : Memory.wf m) :
    Memory.get (Memory.set m a v) a = v := by
  induction m with
  | nil =>
    simp only [Memory.set]
    split
    · rename_i hv
      exact hv.symm
    · simp [Memory.get]
  | cons q m ih =>
    obtain ⟨a', b⟩ := q
    obtain ⟨hlt, hb, hm⟩ := Memory.wf_cons.1 h
    simp only [Memory.set]
    split
    · rename_i hlt'
      split
      · rename_i hv
        rw [hv]
        refine Memory.get_eq_unlisted_of_lt fun p hp => ?_
        rcases List.mem_cons.1 hp with rfl | hp
        · exact hlt'
        · exact Nat.lt_trans hlt' (hlt p hp)
      · simp [Memory.get]
    · split
      · rename_i heq
        split
        · rename_i hv
          rw [hv]
          exact Memory.get_eq_unlisted_of_lt fun p hp => heq ▸ hlt p hp
        · simp [Memory.get]
      · rename_i hn hne
        simp only [Memory.get]
        rw [if_neg (fun h => hne h.symm)]
        exact ih hm

/-- Read after write, at another offset. -/
theorem Memory.get_set_other {m : Memory} {a x : Nat} (v : Byte) (hx : x ≠ a) :
    Memory.get (Memory.set m a v) x = Memory.get m x := by
  have hx' : a ≠ x := fun h => hx h.symm
  induction m with
  | nil =>
    simp only [Memory.set]
    split <;> simp [Memory.get, hx']
  | cons q m ih =>
    obtain ⟨a', b⟩ := q
    simp only [Memory.set]
    split
    · split <;> simp [Memory.get, hx']
    · split
      · rename_i heq
        subst heq
        split <;> simp [Memory.get, hx']
      · simp only [Memory.get, ih]

/-- A canonical listing is determined by what it reads as: equal streams are equal data. -/
theorem Memory.ext_of_get {m n : Memory} (hm : Memory.wf m) (hn : Memory.wf n)
    (h : ∀ a, Memory.get m a = Memory.get n a) : m = n := by
  induction m generalizing n with
  | nil =>
    cases n with
    | nil => rfl
    | cons q n =>
      have hq := (Memory.wf_cons.1 hn).2.1
      have := h q.1
      simp [Memory.get] at this
      exact absurd this.symm hq
  | cons p m ih =>
    obtain ⟨a, b⟩ := p
    obtain ⟨hlt, hb, hm'⟩ := Memory.wf_cons.1 hm
    cases n with
    | nil =>
      have := h a
      simp [Memory.get] at this
      exact absurd this hb
    | cons q n =>
      obtain ⟨a', b'⟩ := q
      obtain ⟨hlt', hb', hn'⟩ := Memory.wf_cons.1 hn
      have haa : a = a' := by
        rcases Nat.lt_trichotomy a a' with hc | hc | hc
        · have h1 := h a
          rw [Memory.get_eq_unlisted_of_lt (m := (a', b') :: n)] at h1
          · simp [Memory.get] at h1
            exact absurd h1 hb
          · intro p hp
            rcases List.mem_cons.1 hp with rfl | hp
            · exact hc
            · exact Nat.lt_trans hc (hlt' p hp)
        · exact hc
        · have h1 := h a'
          rw [Memory.get_eq_unlisted_of_lt (m := (a, b) :: m)] at h1
          · simp [Memory.get] at h1
            exact absurd h1.symm hb'
          · intro p hp
            rcases List.mem_cons.1 hp with rfl | hp
            · exact hc
            · exact Nat.lt_trans hc (hlt p hp)
      subst haa
      have hbb : b = b' := by simpa [Memory.get] using h a
      subst hbb
      rw [ih hm' hn' fun x => ?_]
      by_cases hx : a = x
      · subst hx
        rw [Memory.get_eq_unlisted_of_lt hlt, Memory.get_eq_unlisted_of_lt hlt']
      · simpa [Memory.get, hx] using h x

/-- Placing bytes keeps the canonical form. -/
theorem Memory.wf_placeBytes {m : Memory} (a : Nat) (bs : List Byte) (h : Memory.wf m) :
    Memory.wf (placeBytes m a bs) := by
  induction bs generalizing m a with
  | nil => exact h
  | cons b bs ih => exact ih (a + 1) (Memory.wf_set a b h)

/-- What placing bytes can leave in the listing: what was there, and pairs inside the placed range. -/
theorem mem_placeBytes {m : Memory} {a : Nat} {bs : List Byte} {p : Host.Cell} (h : p ∈ placeBytes m a bs) :
    p ∈ m ∨ (a ≤ p.1 ∧ p.1 < a + bs.length) := by
  induction bs generalizing m a with
  | nil => exact .inl h
  | cons b bs ih =>
    simp only [List.length_cons]
    rcases ih h with h | h
    · rcases Memory.mem_set h with h | rfl
      · exact .inl h
      · right
        constructor
        · exact Nat.le_refl a
        · show a < a + (bs.length + 1)
          omega
    · right
      omega

/-- Placing bytes leaves every offset outside their range as it was. -/
theorem get_placeBytes_outside {m : Memory} {a x : Nat} {bs : List Byte} (h : x < a ∨ a + bs.length ≤ x) :
    Memory.get (placeBytes m a bs) x = Memory.get m x := by
  induction bs generalizing m a with
  | nil => rfl
  | cons b bs ih =>
    simp only [List.length_cons] at h
    rw [placeBytes, ih (by omega), Memory.get_set_other b (by omega)]

/-- A placed byte reads back. -/
theorem get_placeBytes_inside {m : Memory} (hm : Memory.wf m) {a k : Nat} {bs : List Byte} {b : Byte}
    (h : bs[k]? = some b) : Memory.get (placeBytes m a bs) (a + k) = b := by
  induction bs generalizing m a k with
  | nil => simp at h
  | cons c bs ih =>
    cases k with
    | zero =>
      obtain rfl : c = b := by simpa using h
      rw [placeBytes, get_placeBytes_outside (by omega), Nat.add_zero, Memory.get_set_same a c hm]
    | succ k =>
      have := ih (Memory.wf_set a c hm) (a := a + 1) (k := k) (by simpa using h)
      rw [placeBytes, ← this]
      congr 1
      omega

/-- The listing of a stream stands in its range. -/
theorem mem_listBytes {a : Nat} {bs : List Byte} {p : Host.Cell} (h : p ∈ listBytes a bs) :
    a ≤ p.1 ∧ p.1 < a + bs.length := by
  induction bs generalizing a with
  | nil => simp [listBytes] at h
  | cons b bs ih =>
    simp only [listBytes] at h
    simp only [List.length_cons]
    split at h
    · have := ih h
      omega
    · rcases List.mem_cons.1 h with rfl | h
      · exact ⟨Nat.le_refl a, show a < a + (bs.length + 1) by omega⟩
      · have := ih h
        omega

/-- The listing of a stream is canonical. -/
theorem Memory.wf_listBytes (a : Nat) (bs : List Byte) : Memory.wf (listBytes a bs) := by
  induction bs generalizing a with
  | nil => exact Memory.wf_nil
  | cons b bs ih =>
    simp only [listBytes]
    split
    · exact ih (a + 1)
    · rename_i hb
      refine Memory.wf_cons.2 ⟨fun p hp => ?_, hb, ih (a + 1)⟩
      have := (mem_listBytes hp).1
      show a < p.1
      omega

/-- The listing of a stream reads as the stream (R35: "every read of the stream returns the byte the caller supplied"). -/
theorem get_listBytes {a k : Nat} {bs : List Byte} {b : Byte} (h : bs[k]? = some b) :
    Memory.get (listBytes a bs) (a + k) = b := by
  induction bs generalizing a k with
  | nil => simp at h
  | cons c bs ih =>
    simp only [listBytes]
    cases k with
    | zero =>
      obtain rfl : c = b := by simpa using h
      split
      · rename_i hc
        rw [hc]
        refine Memory.get_eq_unlisted_of_lt fun p hp => ?_
        have := (mem_listBytes hp).1
        omega
      · simp [Memory.get]
    | succ k =>
      have hk : Memory.get (listBytes (a + 1) bs) (a + 1 + k) = b := ih (by simpa using h)
      have he : a + 1 + k = a + (k + 1) := by omega
      rw [he] at hk
      split
      · exact hk
      · simp only [Memory.get]
        rw [if_neg (by omega), hk]

/-- The memory of the reset state is canonical. -/
theorem State.reset_memory_wf : Memory.wf State.reset.stream := Memory.wf_nil

end Sys2Proof.Machine
end

