-- ==== Sys2Proof/Laws/PerInstr.lean ====
section
/-! SUPPORT. One lemma for each constructor of Instr, family Encoding: the encoding of an instruction is as long as the
instruction, begins with its opcode byte, and the decoder's width for that byte is the rest of it (spec/30_encoding R51, R58). -/

namespace Sys2Proof.Laws.Encoding

/-- The lockstep of the encoder, the lengths and the decoder's width table, for one instruction. -/
def Statement (i : Instr) : Prop :=
  (encode i).length = instrLength i ∧ (encode i).head? = some (opcodeOf i) ∧
    operandWidth (opcodeOf i) = some ((encode i).length - 1)

theorem halt : Statement .halt := ⟨rfl, rfl, rfl⟩
theorem dconstM1 : Statement .dconstM1 := ⟨rfl, rfl, rfl⟩
theorem dconst0 : Statement .dconst0 := ⟨rfl, rfl, rfl⟩
theorem dconst1 : Statement .dconst1 := ⟨rfl, rfl, rfl⟩
theorem dconst2 : Statement .dconst2 := ⟨rfl, rfl, rfl⟩
theorem dconst (imm : F64) : Statement (.dconst imm) := ⟨rfl, rfl, rfl⟩
theorem jeq (addr : Offset) : Statement (.jeq addr) := ⟨rfl, rfl, rfl⟩
theorem jne (addr : Offset) : Statement (.jne addr) := ⟨rfl, rfl, rfl⟩
theorem jlt (addr : Offset) : Statement (.jlt addr) := ⟨rfl, rfl, rfl⟩
theorem jle (addr : Offset) : Statement (.jle addr) := ⟨rfl, rfl, rfl⟩
theorem jgt (addr : Offset) : Statement (.jgt addr) := ⟨rfl, rfl, rfl⟩
theorem jge (addr : Offset) : Statement (.jge addr) := ⟨rfl, rfl, rfl⟩
theorem add : Statement .add := ⟨rfl, rfl, rfl⟩
theorem sub : Statement .sub := ⟨rfl, rfl, rfl⟩
theorem mul : Statement .mul := ⟨rfl, rfl, rfl⟩
theorem div : Statement .div := ⟨rfl, rfl, rfl⟩
theorem neg : Statement .neg := ⟨rfl, rfl, rfl⟩
theorem nop : Statement .nop := ⟨rfl, rfl, rfl⟩
theorem print : Statement .print := ⟨rfl, rfl, rfl⟩
theorem st1 : Statement .st1 := ⟨rfl, rfl, rfl⟩
theorem ld1 : Statement .ld1 := ⟨rfl, rfl, rfl⟩
theorem st2 : Statement .st2 := ⟨rfl, rfl, rfl⟩
theorem ld2 : Statement .ld2 := ⟨rfl, rfl, rfl⟩

end Sys2Proof.Laws.Encoding
end

