-- ==== Sys2Proof/Laws/Step.lean ====
section
/-! SUPPORT. What the fetch and a step can do, said once. -/

namespace Sys2Proof.Machine

/-- The state each instruction leads to: every arm of `exec` answers a next state. -/
def effect (i : Instr) (s : State) : State :=
  match i with
  | .halt => (s.advance 1).haltSuccess
  | .dconstM1 => pushForm 0xBFF0000000000000 1 s
  | .dconst0 => pushForm 0x0000000000000000 1 s
  | .dconst1 => pushForm 0x3FF0000000000000 1 s
  | .dconst2 => pushForm 0x4000000000000000 1 s
  | .dconst imm => pushForm imm 9 s
  | .jeq addr => jumpForm f64Eq addr s
  | .jne addr => jumpForm f64Ne addr s
  | .jlt addr => jumpForm f64Lt addr s
  | .jle addr => jumpForm f64Le addr s
  | .jgt addr => jumpForm f64Gt addr s
  | .jge addr => jumpForm f64Ge addr s
  | .add => binaryForm noTest f64Add s
  | .sub => binaryForm noTest f64Sub s
  | .mul => binaryForm noTest f64Mul s
  | .div => binaryForm zeroTest f64Div s
  | .neg => unaryForm f64Neg s
  | .nop => s.advance 1
  | .print => popForm (fun t v => t.emit v) s
  | .st1 => popForm (fun t v => t.setReg .r1 v) s
  | .ld1 => pushForm s.r1 1 s
  | .st2 => popForm (fun t v => t.setReg .r2 v) s
  | .ld2 => pushForm s.r2 1 s

theorem exec_eq_effect (i : Instr) (s : State) : exec i s = .next (effect i s) := by
  cases i <;> rfl

theorem hasStep_iff (s : State) : hasStep s = true ↔ s.status = .running := by
  unfold hasStep
  cases s.status <;> simp

/-- The bytes of the fetch: those of the stream from `pc` on, nine or as many as there are. -/
theorem fetchBytes_eq (s : State) :
    fetchBytes s = (List.range (min 9 (s.streamLen.toNat - s.pc.toNat))).map
      fun k => Memory.get s.stream (s.pc.toNat + k) := by
  have h : ∀ (n j : Nat), ((List.range' j n).filterMap fun k => imemRead s (s.pc.toNat + k)) =
      (List.range (min n (s.streamLen.toNat - (s.pc.toNat + j)))).map
        fun i => Memory.get s.stream (s.pc.toNat + j + i) := by
    intro n
    induction n with
    | zero => intro j; simp
    | succ n ih =>
      intro j
      have ih' := ih (j + 1)
      simp only [List.range'_succ, List.filterMap_cons, imemRead] at ih' ⊢
      rw [ih']
      by_cases hlt : s.pc.toNat + j < s.streamLen.toNat
      · have e : min (n + 1) (s.streamLen.toNat - (s.pc.toNat + j)) =
            min n (s.streamLen.toNat - (s.pc.toNat + (j + 1))) + 1 := by omega
        simp only [hlt, if_true]
        rw [e, List.range_succ_eq_map, List.map_cons, List.map_map]
        congr 1
        refine List.map_congr_left fun i _ => ?_
        simp only [Function.comp]
        congr 1
        omega
      · have e : min (n + 1) (s.streamLen.toNat - (s.pc.toNat + j)) = 0 := by omega
        have e' : min n (s.streamLen.toNat - (s.pc.toNat + (j + 1))) = 0 := by omega
        simp only [hlt, if_false]
        rw [e, e']
        rfl
  have h9 := h 9 0
  rwa [← List.range_eq_range'] at h9

/-- The bytes of the fetch, one by one. -/
theorem fetchBytes_getElem? (s : State) (k : Nat) (hk : k < 9) :
    (fetchBytes s)[k]? = imemRead s (s.pc.toNat + k) := by
  rw [fetchBytes_eq]
  simp only [imemRead, List.getElem?_map]
  by_cases hlt : s.pc.toNat + k < s.streamLen.toNat
  · rw [List.getElem?_range (by omega)]
    simp [hlt]
  · rw [List.getElem?_eq_none (by simp only [List.length_range]; omega)]
    simp [hlt]

theorem fetchBytes_length (s : State) : (fetchBytes s).length = min 9 (s.streamLen.toNat - s.pc.toNat) := by
  simp [fetchBytes_eq]

/-- A step of a core that answers a next state: the core was Running, and the step either raised what the fetch says or
executed the instruction it gives. -/
theorem step_next_cases {s t : State} (h : step s = .next t) :
    s.status = .running ∧
      ((∃ f, fetch s = .fail f ∧ t = s.raise f) ∨ (∃ i, fetch s = .run i ∧ exec i s = .next t)) := by
  unfold step at h
  cases hs : hasStep s with
  | false => simp [hs] at h
  | true =>
    refine ⟨(hasStep_iff s).1 hs, ?_⟩
    cases hf : fetch s with
    | fail f =>
      simp only [hs, hf, Host.Outcome.next.injEq] at h
      exact .inl ⟨f, rfl, h.symm⟩
    | run i =>
      simp only [hs, hf] at h
      exact .inr ⟨i, rfl, h⟩

/-- The step of a Running core whose fetch fails. -/
theorem step_of_fail {s : State} {f : Failure} (hs : s.status = .running) (hf : fetch s = .fail f) :
    step s = .next (s.raise f) := by
  simp only [step, (hasStep_iff s).2 hs, hf]

/-- The step of a Running core whose fetch gives an instruction. -/
theorem step_of_run {s : State} {i : Instr} (hs : s.status = .running) (hf : fetch s = .run i) :
    step s = exec i s := by
  simp only [step, (hasStep_iff s).2 hs, hf]

/-- The step of a core that is not Running. -/
theorem step_of_halted {s : State} (hs : s.status ≠ .running) : step s = .fault .halted := by
  have : hasStep s = false := by
    cases h : hasStep s with
    | false => rfl
    | true => exact absurd ((hasStep_iff s).1 h) hs
  simp only [step, this]

end Sys2Proof.Machine
end

