-- ==== Sys2Proof/Tests/Slice0.lean ====
section
/-! SUPPORT. Tests of the model: ill-formed terms, words written out from spec/30_encoding, one step on a small state with the
result that spec/95_test_vectors gives (its row is named in each comment), and for every statement with hypotheses a state and
operands that meet them. Nothing here is a statement for the provers. -/

namespace Sys2Proof.Tests

open Sys2Proof Sys2Proof.Machine

/-- The core after reset with this stream (spec/95: "start: reset"). -/
def boot (bytes : List Byte) : State := State.reset.resetWith (listBytes 0 bytes) (BitVec.ofNat 32 bytes.length)

/-- The same with a stack, TOP FIRST (spec/95 lists the bottom first). -/
def bootStack (bytes : List Byte) (st : List F64) : State := (boot bytes).setStack st

/-- The same with the two registers. -/
def bootRegs (bytes : List Byte) (a b : F64) : State := ((boot bytes).setReg .r1 a).setReg .r2 b

/-- `n` zeros on the stack. -/
def zeros (n : Nat) : List F64 := List.replicate n 0

/-- The state after one step; the state itself where there is none. -/
def after (s : State) : State :=
  match step s with
  | .next t => t
  | .fault _ => s
  | .refused _ => s

/-- What a step that fails leaves: code, pc recorded, byte recorded, pc, depth. -/
def failure (s : State) : FaultCode × Nat × Byte × Nat × Nat :=
  ((after s).faultCode, (after s).faultPc.toNat, (after s).faultByte, (after s).pc.toNat, (after s).sp)

/-! ## WellFormed: terms the checks refuse -/

theorem test_truncated_jump_refused : Instr.fitsAt (.jeq 0) 0 4 = false := by decide
theorem test_whole_jump_accepted : Instr.fitsAt (.jeq 0) 0 5 = true := by decide
theorem test_truncated_constant_refused : Instr.fitsAt (.dconst 0) 1 9 = false := by decide
theorem test_too_long_stream_refused : streamOk (2 ^ 32) = false := by decide
theorem test_longest_stream_accepted : streamOk (2 ^ 32 - 1) = true := by decide
theorem test_every_operand_accepted : Instr.wellFormed (.jge 0xFFFFFFFF) = true := rfl

/-! ## Decoding: the words of R52 and their operands, byte by byte -/

theorem test_decode_halt : decode [0x00] = .instr .halt [] := by decide
theorem test_decode_dconstM1 : decode [0x0A] = .instr .dconstM1 [] := by decide
theorem test_decode_dconst0 : decode [0x0B] = .instr .dconst0 [] := by decide
theorem test_decode_dconst1 : decode [0x0C] = .instr .dconst1 [] := by decide
theorem test_decode_dconst2 : decode [0x0D] = .instr .dconst2 [] := by decide
/-- K8: the byte order check. -/
theorem test_decode_dconst : decode [0x0F, 0x01, 0x02, 0x03, 0x04, 0x05, 0x06, 0x07, 0x08, 0x00] =
    .instr (.dconst 0x0102030405060708) [0x00] := by decide
/-- R53: "bytes 10 00 01 02 03 are JEQ with addr = 0x00010203 = 66051". -/
theorem test_decode_jeq : decode [0x10, 0x00, 0x01, 0x02, 0x03] = .instr (.jeq 66051) [] := by decide
theorem test_decode_jne : decode [0x11, 0x00, 0x00, 0x00, 0x20] = .instr (.jne 32) [] := by decide
theorem test_decode_jlt : decode [0x12, 0x80, 0x00, 0x00, 0x00] = .instr (.jlt 0x80000000) [] := by decide
theorem test_decode_jle : decode [0x13, 0x00, 0x00, 0x01, 0x00] = .instr (.jle 256) [] := by decide
/-- R53: "bytes 14 00 00 00 06 are JGT with addr = 6". -/
theorem test_decode_jgt : decode [0x14, 0x00, 0x00, 0x00, 0x06] = .instr (.jgt 6) [] := by decide
theorem test_decode_jge : decode [0x15, 0xFF, 0xFF, 0xFF, 0xFF] = .instr (.jge 0xFFFFFFFF) [] := by decide
theorem test_decode_add : decode [0x60] = .instr .add [] := by decide
theorem test_decode_sub : decode [0x61] = .instr .sub [] := by decide
theorem test_decode_mul : decode [0x62] = .instr .mul [] := by decide
theorem test_decode_div : decode [0x64] = .instr .div [] := by decide
theorem test_decode_neg : decode [0x70] = .instr .neg [] := by decide
theorem test_decode_nop : decode [0xF0] = .instr .nop [] := by decide
theorem test_decode_print : decode [0xF2] = .instr .print [] := by decide
theorem test_decode_st1 : decode [0xF4] = .instr .st1 [] := by decide
theorem test_decode_ld1 : decode [0xF5] = .instr .ld1 [] := by decide
theorem test_decode_st2 : decode [0xF6] = .instr .st2 [] := by decide
theorem test_decode_ld2 : decode [0xF7] = .instr .ld2 [] := by decide
/-- I1: the edges of every illegal range of R55. -/
theorem test_illegal_edges : ∀ op ∈ ([0x01, 0x09, 0x0E, 0x16, 0x5F, 0x63, 0x65, 0x6F, 0x71, 0xEF, 0xF1, 0xF3, 0xF8, 0xFF] : List Byte),
    decode [op] = .illegalOpcode op := by decide
/-- T2, T3: the operand bytes are not all there. -/
theorem test_truncated_operand : decode [0x0F, 0x40, 0x59] = .truncatedOperand := by decide
theorem test_no_opcode : decode [] = .noOpcode := by decide
/-- The numbering of spec/opcode_table.json: the opcode byte is bits 7..0, the next byte bits 15..8. -/
theorem test_table_word_jgt : decodeTableWord 40 0x0600000014 = some (.jgt 6) := by decide
theorem test_table_word_dconst : decodeTableWord 72 0x00000000000059400F = some (.dconst 0x4059000000000000) := by decide
theorem test_table_word_placed : step (State.reset.withFetchWord 8 0x0D) =
    .next { State.reset.withFetchWord 8 0x0D with stack := [0x4000000000000000], pc := 1 } := by rfl

/-! ## One step -/

/-- H1 -/
theorem test_halt : (after (boot [0x00])).status = .haltedSuccess ∧ (after (boot [0x00])).pc = 1 := by decide
/-- U12: a halted core has no step. -/
theorem test_after_halt : step (after (boot [0x00])) = .fault .halted := rfl
/-- H4 -/
theorem test_nop : (after (boot [0xF0])).pc = 1 := by decide
/-- K1 to K4 -/
theorem test_dconstM1 : (after (boot [0x0A])).stack = [0xBFF0000000000000] := by decide
theorem test_dconst0 : (after (boot [0x0B])).stack = [0x0000000000000000] := by decide
theorem test_dconst1 : (after (boot [0x0C])).stack = [0x3FF0000000000000] := by decide
theorem test_dconst2 : (after (boot [0x0D])).stack = [0x4000000000000000] := by decide
/-- K7: a signalling NaN moves unchanged. -/
theorem test_dconst_snan : (after (boot [0x0F, 0x7F, 0xF0, 0, 0, 0, 0, 0, 1])).stack = [0x7FF0000000000001] ∧
    (after (boot [0x0F, 0x7F, 0xF0, 0, 0, 0, 0, 0, 1])).pc = 9 := by decide
/-- K9, K10: the 256th push succeeds, the 257th fails. -/
theorem test_push_256th : (after (bootStack [0x0C] (zeros 255))).sp = 256 ∧
    (after (bootStack [0x0C] (zeros 255))).slot 255 = some 0x3FF0000000000000 := by decide +kernel
theorem test_push_257th : failure (bootStack [0x0C] (zeros 256)) = (.stackOverflow, 0, 0, 0, 256) := by decide +kernel
/-- K12: truncation is tested before the stack. -/
theorem test_truncation_first :
    failure (bootStack [0x0F, 0x40, 0x59, 0, 0, 0, 0, 0] (zeros 256)) = (.truncatedStream, 0, 0, 0, 256) := by decide +kernel

/-- The pcs the six jumps, each at 0 with target 64, go to with these registers (S3 and the table of 2.3). -/
def jumpPcs (a b : F64) : List Nat :=
  ([0x10, 0x11, 0x12, 0x13, 0x14, 0x15] : List Byte).map fun op => (after (bootRegs [op, 0, 0, 0, 64] a b)).pc.toNat

/-- S3, row 1: equal. -/
theorem test_jumps_equal : jumpPcs 0x4000000000000000 0x4000000000000000 = [64, 5, 5, 64, 5, 64] := by decide +kernel
/-- S3, row 2: less. -/
theorem test_jumps_less : jumpPcs 0x3FF0000000000000 0x4000000000000000 = [5, 64, 64, 64, 5, 5] := by decide +kernel
/-- 2.3: -1.0 against -2.0, greater. -/
theorem test_jumps_greater : jumpPcs 0xBFF0000000000000 0xC000000000000000 = [5, 64, 5, 5, 64, 64] := by decide +kernel
/-- S3, row 6: the same NaN in both. -/
theorem test_jumps_nan : jumpPcs 0x7FF8000000000000 0x7FF8000000000000 = [5, 64, 5, 5, 5, 5] := by decide +kernel
/-- 2.3: +0.0 against -0.0. -/
theorem test_jumps_zeros : jumpPcs 0x0000000000000000 0x8000000000000000 = [64, 5, 5, 64, 5, 64] := by decide +kernel
/-- 2.3: -inf against +inf; +inf against the largest finite value. -/
theorem test_jumps_infinities : jumpPcs 0xFFF0000000000000 0x7FF0000000000000 = [5, 64, 64, 64, 5, 5] ∧
    jumpPcs 0x7FF0000000000000 0x7FEFFFFFFFFFFFFF = [5, 64, 5, 5, 64, 64] := by decide +kernel
/-- J3: a target past the end is the pc of the jump and the reported pc of the next step. -/
theorem test_jump_past_end : (after (boot [0x10, 0xFF, 0xFF, 0xFF, 0xFF])).pc = 0xFFFFFFFF ∧
    failure (after (boot [0x10, 0xFF, 0xFF, 0xFF, 0xFF])) = (.truncatedStream, 4294967295, 0, 4294967295, 0) := by decide +kernel
/-- J5: the operand is fetched although the jump is not taken. -/
theorem test_jump_truncated : failure (boot [0x12, 0, 0]) = (.truncatedStream, 0, 0, 0, 0) := by decide

/-- A1, A8: 0.1 + 0.2; a tie that rounds up to even. -/
theorem test_add_tenths :
    (after (bootStack [0x60] [0x3FC999999999999A, 0x3FB999999999999A])).stack = [0x3FD3333333333334] := by decide +kernel
theorem test_add_tie :
    (after (bootStack [0x60] [0x4008000000000000, 0x4340000000000000])).stack = [0x4340000000000002] := by decide +kernel
/-- A6: (+inf) + (-inf) is some NaN, pushed. -/
theorem test_add_invalid : isNaN (f64Add 0x7FF0000000000000 0xFFF0000000000000) = true := isNaN_nanResult _ _ _
/-- B1, B4: operand order; (-0.0) - (+0.0). -/
theorem test_sub_order :
    (after (bootStack [0x61] [0x4000000000000000, 0x4014000000000000])).stack = [0x4008000000000000] := by decide +kernel
theorem test_sub_zeros :
    (after (bootStack [0x61] [0x0000000000000000, 0x8000000000000000])).stack = [0x8000000000000000] := by decide +kernel
/-- M7, M4: a subnormal tie; overflow. -/
theorem test_mul_subnormal_tie : (after (bootStack [0x62] [0x3FE0000000000000, 3])).stack = [2] := by decide +kernel
theorem test_mul_overflow :
    (after (bootStack [0x62] [0x4000000000000000, 0x7FEFFFFFFFFFFFFF])).stack = [0x7FF0000000000000] := by decide +kernel
/-- V3, V5: 2 / 3; a divisor of -0.0. -/
theorem test_div_thirds :
    (after (bootStack [0x64] [0x4008000000000000, 0x4000000000000000])).stack = [0x3FE5555555555555] := by decide +kernel
theorem test_div_by_minus_zero :
    failure (bootStack [0x64] [0x8000000000000000, 0x3FF0000000000000]) = (.divisionByZero, 0, 0, 0, 2) := by decide +kernel
/-- Q3: one value, a zero, on the stack of a DIV: underflow, not DivisionByZero. -/
theorem test_div_underflow : failure (bootStack [0x64] [0]) = (.stackUnderflow, 0, 0, 0, 1) := by decide
/-- G6, Q6: NEG keeps a payload; a full stack. -/
theorem test_neg_snan : (after (bootStack [0x70] [0x7FF0000000000001])).stack = [0xFFF0000000000001] := by decide
theorem test_neg_full : (after (bootStack [0x70] (zeros 256))).sp = 256 ∧
    (after (bootStack [0x70] (zeros 256))).slot 255 = some 0x8000000000000000 := by decide +kernel
/-- X1, X2, X3, X7 -/
theorem test_st1 : (after (bootStack [0xF4] [0x4014000000000000])).r1 = 0x4014000000000000 ∧
    (after (bootStack [0xF4] [0x4014000000000000])).stack = [] := by decide
theorem test_st2 : (after (bootStack [0xF6] [0x4000000000000000, 0x3FF0000000000000])).r2 = 0x4000000000000000 ∧
    (after (bootStack [0xF6] [0x4000000000000000, 0x3FF0000000000000])).stack = [0x3FF0000000000000] := by decide
theorem test_ld1 : (after (boot [0xF5])).stack = [0] := by decide
theorem test_ld1_full : failure (bootStack [0xF5] (zeros 256)) = (.stackOverflow, 0, 0, 0, 256) := by decide +kernel
/-- X4 -/
theorem test_ld2 : (after (bootRegs [0xF7] 0 0x4059000000000000)).stack = [0x4059000000000000] := by decide
/-- W1, W2 -/
theorem test_print : (after (bootStack [0xF2] [0x3FF0000000000000])).out = [0x3FF0000000000000] ∧
    (after (bootStack [0xF2] [0x3FF0000000000000])).stack = [] := by decide
theorem test_print_empty : failure (boot [0xF2]) = (.stackUnderflow, 0, 0, 0, 0) := by decide
/-- T1, T6 -/
theorem test_empty_stream : failure (boot []) = (.truncatedStream, 0, 0, 0, 0) := by decide
theorem test_illegal_last_byte : failure (boot [0x63]) = (.invalidOpcode, 0, 0x63, 0, 0) := by decide
/-- W4, W7, W8: the text of a value. -/
theorem test_text_negative : fmt6 0xBFE8000000000000 = ['-', '0', '.', '7', '5', '0', '0', '0', '0'] := by decide +kernel
theorem test_text_above_tie : fmt6 0x3EC4F8B588E368F1 = ['0', '.', '0', '0', '0', '0', '0', '3'] := by decide +kernel
theorem test_text_minus_zero : fmt6 0x8000000000000000 = ['-', '0', '.', '0', '0', '0', '0', '0', '0'] := by decide +kernel

/-! ## Witnesses: for each statement with hypotheses, a state and operands that meet all of them, and each clause at a
boundary -/

/-- A halted core, with values left in it. -/
def halted : State := { bootStack [0x00] [1, 2] with status := .haltedSuccess, pc := 1 }

theorem witness_ResetFromAnyState : halted.status ≠ .running ∧ (boot []).streamLen = 0 := by decide
theorem witness_CreateBindsTheStream : (∃ bytes : List Byte, 2 ^ 32 ≤ bytes.length) ∧
    (∃ bytes : List Byte, bytes.length = 2 ^ 32 - 1 ∧ bytes.length < 2 ^ 32) ∧ ([] : List Byte).length < 2 ^ 32 := by
  have h (n : Nat) : ∃ bytes : List Byte, bytes.length = n := ⟨List.replicate n 0, List.length_replicate⟩
  obtain ⟨long, hl⟩ := h (2 ^ 32)
  obtain ⟨max, hm⟩ := h (2 ^ 32 - 1)
  exact ⟨⟨long, hl.ge⟩, ⟨max, hm, by omega⟩, by decide⟩
theorem witness_StepKeepsTheStream : step (boot [0xF0]) = .next { boot [0xF0] with pc := 1 } := rfl
theorem witness_ExecStoresNothing : exec .nop (boot [0xF0]) = .next { boot [0xF0] with pc := 1 } := rfl
theorem witness_DecodeOfEncode : Instr.wellFormed (.dconst 0x7FF0000000000001) = true ∧ Instr.wellFormed .halt = true ∧
    Instr.wellFormed (.jge 0xFFFFFFFF) = true := by decide
theorem witness_EncodeOfDecode : decode [0x15, 0xFF, 0xFF, 0xFF, 0xFF, 0x00] = .instr (.jge 0xFFFFFFFF) [0x00] := by decide
theorem witness_OperandWidths : decode (0x0F :: [0, 0, 0, 0, 0, 0, 0, 1, 0x00]) = .instr (.dconst 1) [0x00] ∧
    decode (0x10 :: [0, 0, 0, 1]) = .instr (.jeq 1) [] ∧ decode (0xF7 :: []) = .instr .ld2 [] ∧
    (0x15 : Byte) ∈ jOpcodes ∧ (0x00 : Byte) ∈ zOpcodes ∧ (0xFF : Byte) ∉ zOpcodes := by decide
theorem witness_IllegalBytesFail : (boot [0xF8]).status = .running ∧
    imemRead (boot [0xF8]) (boot [0xF8]).pc.toNat = some 0xF8 ∧ isIllegalByte 0xF8 = true := by decide
theorem witness_StepRunsTheDecoded : (boot [0x14, 0, 0, 0, 6]).status = .running ∧
    decode (fetchBytes (boot [0x14, 0, 0, 0, 6])) = .instr (.jgt 6) [] := by decide
/-- The five clauses: `pc = L`; an illegal byte; one operand byte missing (`pc + 1 + w = L + 1`); the operand just there. -/
theorem witness_StepMakesTheTests :
    ((boot [] ).status = .running ∧ (boot []).streamLen.toNat ≤ (boot []).pc.toNat) ∧
    (imemRead (boot [0x63]) 0 = some 0x63 ∧ operandWidth 0x63 = none ∧ 0 < (boot [0x63]).streamLen.toNat) ∧
    (imemRead (boot [0x12, 0, 0, 0]) 0 = some 0x12 ∧ operandWidth 0x12 = some 4 ∧
      (boot [0x12, 0, 0, 0]).streamLen.toNat < 0 + 1 + 4) ∧
    (imemRead (boot [0x12, 0, 0, 0, 7]) 0 = some 0x12 ∧ 0 + 1 + 4 ≤ (boot [0x12, 0, 0, 0, 7]).streamLen.toNat) ∧
    (imemRead (boot [0x00]) 0 = some 0x00 ∧ operandWidth 0x00 = some 0 ∧ 0 + 1 + 0 ≤ (boot [0x00]).streamLen.toNat) := by decide
theorem witness_StepIsTotal : (boot [0x63]).status = .running ∧ (boot [0x00]).status = .running := by decide
theorem witness_HaltedCoreIsFrozen : halted.status ≠ .running ∧ (after (boot [])).status ≠ .running := by decide
theorem witness_FailuresArePrecise :
    (step (boot [0x63]) = .next (after (boot [0x63])) ∧ (after (boot [0x63])).status = .haltedFailure ∧
      (after (boot [0x63])).faultCode = .invalidOpcode) ∧
    (step (bootStack [0x64] [0, 1]) = .next (after (bootStack [0x64] [0, 1])) ∧
      (after (bootStack [0x64] [0, 1])).status = .haltedFailure ∧
      (after (bootStack [0x64] [0, 1])).faultCode ≠ .invalidOpcode) :=
  ⟨⟨rfl, rfl, rfl⟩, rfl, rfl, by decide +kernel⟩
theorem witness_StatusTransitions : step (boot [0x00]) = .next (after (boot [0x00])) ∧
    (after (boot [0x00])).status = .haltedSuccess ∧ step (boot []) = .next (after (boot [])) ∧
    (after (boot [])).status = .haltedFailure ∧ step (boot [0xF0]) = .next (after (boot [0xF0])) ∧
    (after (boot [0xF0])).status = .running := ⟨rfl, rfl, rfl, rfl, rfl, rfl⟩
/-- A failing step; a jump taken; a jump not taken, the last instruction of the stream. -/
theorem witness_PcAfterAStep :
    (step (boot []) = .next (after (boot [])) ∧ (after (boot [])).status = .haltedFailure) ∧
    (step (boot [0x10, 0, 0, 0, 9]) = .next (after (boot [0x10, 0, 0, 0, 9])) ∧
      (after (boot [0x10, 0, 0, 0, 9])).status ≠ .haltedFailure ∧ jumpTaken (.jeq 9) (boot [0x10, 0, 0, 0, 9]) = some 9) ∧
    (step (boot [0x11, 0, 0, 0, 9]) = .next (after (boot [0x11, 0, 0, 0, 9])) ∧
      (after (boot [0x11, 0, 0, 0, 9])).status ≠ .haltedFailure ∧ jumpTaken (.jne 9) (boot [0x11, 0, 0, 0, 9]) = none) :=
  ⟨⟨rfl, rfl⟩, ⟨rfl, by decide +kernel, rfl⟩, rfl, by decide +kernel, rfl⟩
/-- A jump that is not taken, the last instruction of the stream; `pc = L`; an illegal byte. -/
theorem witness_PcStaysInTheStream :
    ((∀ i, InstrAt (boot [0x11, 0, 0, 0, 9]) i → jumpTaken i (boot [0x11, 0, 0, 0, 9]) = none) ∧
      step (boot [0x11, 0, 0, 0, 9]) = .next (after (boot [0x11, 0, 0, 0, 9])) ∧
      (boot [0x11, 0, 0, 0, 9]).pc.toNat ≤ (boot [0x11, 0, 0, 0, 9]).streamLen.toNat) ∧
    ((∀ i, InstrAt (boot []) i → jumpTaken i (boot []) = none) ∧ step (boot []) = .next (after (boot [])) ∧
      (boot []).pc.toNat ≤ (boot []).streamLen.toNat) ∧
    ((∀ i, InstrAt (boot [0x63]) i → jumpTaken i (boot [0x63]) = none) ∧
      step (boot [0x63]) = .next (after (boot [0x63])) ∧ (boot [0x63]).pc.toNat ≤ (boot [0x63]).streamLen.toNat) := by
  have first {s : State} {i : Instr} (h : InstrAt s i) : imemRead s s.pc.toNat = some (opcodeOf i) :=
    h 0 (by cases i <;> exact Nat.succ_pos _)
  refine ⟨⟨fun i h => ?_, rfl, by decide⟩, ⟨fun i h => ?_, rfl, by decide⟩, ⟨fun i h => ?_, rfl, by decide⟩⟩
  · have e : some (0x11 : Byte) = some (opcodeOf i) := first h
    cases i <;> first | rfl | exact absurd e (by simp [opcodeOf, jumpOpcode])
  · exact absurd (first h) nofun
  · have e : some (0x63 : Byte) = some (opcodeOf i) := first h
    cases i <;> first | rfl | exact absurd e (by simp [opcodeOf, jumpOpcode])
/-- One step for each of the five causes. -/
theorem witness_FaultRecordTellsTheCause :
    ((after (bootStack [0x64] [0, 1])).faultCode = .divisionByZero ∧ (after (boot [0x63])).faultCode = .invalidOpcode ∧
      (after (boot [0x0F])).faultCode = .truncatedStream ∧
      (after (bootStack [0xF7] (zeros 256))).faultCode = .stackOverflow ∧
      (after (bootStack [0x60] [1])).faultCode = .stackUnderflow) ∧
    step (bootStack [0x60] [1]) = .next (after (bootStack [0x60] [1])) ∧
    (after (bootStack [0x60] [1])).status = .haltedFailure := ⟨by decide +kernel, rfl, rfl⟩
theorem witness_StepKeepsInv : Inv (bootStack [0xF5] (zeros 255)) ∧
    step (bootStack [0xF5] (zeros 255)) = .next (after (bootStack [0xF5] (zeros 255))) := ⟨by decide +kernel, rfl⟩
theorem witness_CreateMeetsInv : create [0x0C, 0x00] = some (boot [0x0C, 0x00]) ∧ create [] = some (boot []) := by decide
theorem witness_ReachableFailuresShowTheirCause : Reachable (after (boot [0x63])) ∧
    (after (boot [0x63])).status = .haltedFailure :=
  ⟨.step (boot [0x63]) _ (.boot [0x63] _ rfl) rfl, rfl⟩
theorem witness_HaltRule : exec .halt (boot [0x00]) = .next (after (boot [0x00])) ∧
    (boot [0x00]).status ≠ .haltedSuccess ∧ (after (boot [0x00])).status = .haltedSuccess ∧
    (boot []).status = .running ∧ (boot []).streamLen.toNat ≤ (boot []).pc.toNat :=
  ⟨rfl, by decide, rfl, rfl, by decide⟩
theorem witness_SmallConstantRules : (bootStack [0x0B] (zeros 255)).sp < 256 ∧ (bootStack [0x0B] (zeros 256)).sp = 256 ∧
    Instr.dconst2 ∈ [Instr.dconstM1, .dconst0, .dconst1, .dconst2] := by decide +kernel
/-- Room for one; a full stack; a constant of seven bytes. -/
theorem witness_DconstRule : (bootStack [0x0F] (zeros 255)).sp < 256 ∧ (bootStack [0x0F] (zeros 256)).sp = 256 ∧
    (boot [0x0F, 1, 2, 3, 4, 5, 6, 7]).status = .running ∧ imemRead (boot [0x0F, 1, 2, 3, 4, 5, 6, 7]) 0 = some 0x0F ∧
    (boot [0x0F, 1, 2, 3, 4, 5, 6, 7]).streamLen.toNat < 0 + 9 := by decide +kernel
theorem witness_JumpRules : (0x15 : Byte) ∈ jOpcodes ∧ (boot [0x15, 0, 0, 1]).status = .running ∧
    imemRead (boot [0x15, 0, 0, 1]) 0 = some 0x15 ∧ (boot [0x15, 0, 0, 1]).streamLen.toNat < 0 + 5 := by decide
theorem witness_OrderLaw : isNaN 0x7FF0000000000001 = true ∧ isNaN 0xFFFFFFFFFFFFFFFF = true := by decide
/-- The four cases: the two zeros, the two infinities in both orders, a NaN on either side. -/
theorem witness_JumpOutcomeTable : f64Eq 0x0000000000000000 0x8000000000000000 = true ∧
    f64Lt 0xFFF0000000000000 0x7FF0000000000000 = true ∧ f64Lt 0x0000000000000000 0x0000000000000001 = true ∧
    isNaN 0x7FF0000000000001 = true := by decide +kernel
theorem witness_TargetIsNotChecked : (boot [0x10, 0, 0, 0, 5]).status = .running ∧
    jumpTaken (.jeq 5) (boot [0x10, 0, 0, 0, 5]) = some 5 ∧
    exec (.jeq 5) (boot [0x10, 0, 0, 0, 5]) = .next { boot [0x10, 0, 0, 0, 5] with pc := 5 } ∧
    (boot [0x10, 0, 0, 0, 5]).streamLen.toNat ≤ (5 : Offset).toNat := ⟨rfl, rfl, rfl, by decide⟩
/-- For ADD, SUB and MUL: two values, a full stack, and one value. -/
theorem witness_AddRule : (bootStack [0x60] [2, 1]).stack = 2 :: 1 :: [] ∧
    (bootStack [0x60] (zeros 256)).stack = 0 :: 0 :: zeros 254 ∧ (bootStack [0x60] [1]).sp < 2 := by decide +kernel
theorem witness_SubRule : (bootStack [0x61] [2, 1]).stack = 2 :: 1 :: [] ∧ (bootStack [0x61] []).sp < 2 := by decide
theorem witness_MulRule : (bootStack [0x62] [2, 1]).stack = 2 :: 1 :: [] ∧ (bootStack [0x62] [1]).sp < 2 := by decide
/-- The least divisor that is not zero, both zeros, and one value. -/
theorem witness_DivRule : (bootStack [0x64] [1, 7]).stack = 1 :: 7 :: [] ∧ isZero 1 = false ∧
    isZero 0x0000000000000000 = true ∧ isZero 0x8000000000000000 = true ∧ isZero 0x7FF8000000000000 = false ∧
    (bootStack [0x64] [0]).sp < 2 := by decide
theorem witness_NegRule : (bootStack [0x70] [5]).stack = 5 :: [] ∧ (boot [0x70]).sp = 0 := by decide
theorem witness_NegationLaw : 0 < 63 ∧ isFinite 0x8000000000000000 = true ∧ isFinite 0x7FEFFFFFFFFFFFFF = true := by decide
/-- A normal number, the least and the greatest; a subnormal; a zero. -/
theorem witness_BinaryLayout : expField 0x0010000000000000 ≠ 0 ∧ expField 0x7FEFFFFFFFFFFFFF ≠ 0x7FF ∧
    expField 0x000FFFFFFFFFFFFF = 0 ∧ expField 0x8000000000000000 = 0 := by decide
/-- 1.0 and the largest finite value: finite, and none of the four exact results is 0. -/
theorem witness_AluRoundsToNearestEven : isFinite 0x3FF0000000000000 = true ∧ isFinite 0x7FEFFFFFFFFFFFFF = true ∧
    value 0x3FF0000000000000 + value 0x7FEFFFFFFFFFFFFF ≠ 0 ∧ value 0x3FF0000000000000 - value 0x7FEFFFFFFFFFFFFF ≠ 0 ∧
    value 0x3FF0000000000000 * value 0x7FEFFFFFFFFFFFFF ≠ 0 ∧ value 0x3FF0000000000000 ≠ 0 ∧
    value 0x7FEFFFFFFFFFFFFF ≠ 0 := by decide +kernel
/-- The infinities, x + (-x), the zeros, a subnormal and a zero. -/
theorem witness_AddSubSpecialCases : (isNaN 0x7FF0000000000000 = false ∧ isInf 0x7FF0000000000000 = true ∧
      isInf 0xFFF0000000000000 = true ∧ signBit 0x7FF0000000000000 ≠ signBit 0xFFF0000000000000) ∧
    (isFinite 1 = true ∧ isZero 1 = false ∧ isFinite 0x8000000000000001 = true ∧
      value 1 + value 0x8000000000000001 = 0) ∧ isZero 0x8000000000000000 = true ∧ isZero 0 = true := by decide +kernel
theorem witness_MulSpecialCases : isNaN 0x7FF0000000000000 = false ∧ isNaN 0x8000000000000000 = false ∧
    isInf 0x7FF0000000000000 = true ∧ isZero 0x8000000000000000 = true ∧ isZero 0x0000000000000001 = false ∧
    isFinite 0x0000000000000001 = true := by decide
theorem witness_DivSpecialCases : isNaN 0xFFF0000000000000 = false ∧ isZero 0xFFF0000000000000 = false ∧
    isInf 0xFFF0000000000000 = true ∧ isZero 0x8000000000000000 = true ∧ isFinite 0x0000000000000001 = true ∧
    isZero 0x0000000000000001 = false := by decide
theorem witness_NanResults : isZero 0x0000000000000001 = false ∧ isZero 0x7FF8000000000000 = false := by decide
theorem witness_OperandOrder : 2 ≤ (bootStack [0x61] [2, 5, 9]).sp ∧ (bootStack [0x61] [2, 5, 9]).slot (3 - 1) = some 2 ∧
    (bootStack [0x61] [2, 5, 9]).slot (3 - 2) = some 5 ∧ (bootStack [0x61] [2, 5, 9]).sp = 3 ∧ isZero 2 = false := by decide
theorem witness_StoreRules : (bootStack [0xF4] [5]).stack = 5 :: [] ∧ (boot [0xF4]).sp = 0 := by decide
theorem witness_LoadRules : (bootStack [0xF5] (zeros 255)).sp < 256 ∧ (bootStack [0xF5] (zeros 256)).sp = 256 := by
  decide +kernel
theorem witness_TransferRoundTrip : (bootStack [0xF4] (zeros 256)).stack = 0 :: zeros 255 ∧
    (bootStack [0xF4] (zeros 256)).sp ≤ 256 := by decide +kernel
theorem witness_PrintRule : (bootStack [0xF2] [5]).stack = 5 :: [] ∧ (boot [0xF2]).sp = 0 := by decide
theorem witness_RegistersFrame : exec .add (bootStack [0x60] [2, 1]) = .next (after (bootStack [0x60] [2, 1])) ∧
    readsBoth .add = false ∧ Instr.add ≠ .st1 ∧ Instr.add ≠ .ld1 ∧ 0 < (bootStack [0xF4] [5]).sp :=
  ⟨rfl, rfl, by decide, by decide, by decide⟩
theorem witness_OutputFrame :
    (exec .print (bootStack [0xF2] [5]) = .next (after (bootStack [0xF2] [5])) ∧
      (bootStack [0xF2] [5]).status = .running ∧ (after (bootStack [0xF2] [5])).status ≠ .haltedFailure) ∧
    (exec .print (boot [0xF2]) = .next (after (boot [0xF2])) ∧ (after (boot [0xF2])).status = .haltedFailure) ∧
    exec .halt (boot [0x00]) = .next (after (boot [0x00])) ∧ Instr.halt ≠ .print :=
  ⟨⟨rfl, rfl, by decide⟩, ⟨rfl, rfl⟩, rfl, by decide⟩
theorem witness_StackFrame : exec .mul (bootStack [0x62] [2, 1, 7]) = .next (after (bootStack [0x62] [2, 1, 7])) ∧
    0 + 2 < (bootStack [0x62] [2, 1, 7]).sp ∧ (bootStack [0x62] [2, 1, 7]).stack = 2 :: 1 :: [7] ∧
    ([8] : List F64).length = ([7] : List F64).length ∧ leavesStack (.jne 3) = true := ⟨rfl, by decide, rfl, rfl, rfl⟩
theorem witness_StatusFrame : exec .halt (boot [0x00]) = .next (after (boot [0x00])) ∧
    exec .print (boot [0xF2]) = .next ((boot [0xF2]).raise .stackUnderflow) := ⟨rfl, rfl⟩
theorem witness_OutputIsOneWay : step (bootStack [0xF2] [5]) = .next (after (bootStack [0xF2] [5])) := rfl
theorem witness_StoppingAndResuming : (runFor 1 (boot [0xF0, 0x00])).status = .running ∧
    (runFor 2 (boot [0xF0, 0x00])).status = .haltedSuccess := by decide
theorem witness_ResultMapping : halted.status = .haltedSuccess ∧ (boot []).status = .running ∧
    (after (boot [0x63])).status = .haltedFailure ∧ (after (boot [0x63])).faultCode = .invalidOpcode := by decide
/-- R31, I1: what the host reads after an illegal byte. -/
theorem test_result_port : resultPort (after (boot [0xF8])) =
    { status := 2, faultCode := 2, faultPc := 0, faultByte := 0xF8 } := by decide
theorem witness_TextOfAFiniteValue : isFinite 0x8000000000000000 = true ∧ isFinite 0x7FEFFFFFFFFFFFFF = true := by decide
/-- A stream longer than the word needs, and one that ends below `pc`. -/
theorem witness_PlacedWordRuns : StreamOk (boot (List.replicate 12 0xF0)) ∧
    (boot (List.replicate 12 0xF0)).pc.toNat + 9 < 2 ^ 32 ∧ decodeTableWord 40 0x0600000014 = some (.jgt 6) ∧
    (11 < (boot (List.replicate 12 0xF0)).streamLen.toNat ∧ (boot (List.replicate 12 0xF0)).pc.toNat + 9 ≤ 11) ∧
    StreamOk (boot [0xF0]) ∧ (boot [0xF0]).streamLen.toNat ≤ 1 ∧ 1 < ((boot [0xF0]).setPc 2).pc.toNat := by decide

end Sys2Proof.Tests
end

/-! SUPPORT. The proofs of the frame statements of spec/10_state: what the instructions read and write of the registers (R15) and
of the stack (R21). Each is proved once for each operand form and then carried over the instruction set. -/

/-! ## The operand forms on a stack that is known -/

section
namespace Sys2Proof.Machine

/-- `exec` has one answer, the state of `effect`. -/
theorem eq_effect_of_exec {i : Instr} {s t : State} (h : exec i s = .next t) : t = effect i s := by
  rw [exec_eq_effect, Host.Outcome.next.injEq] at h
  exact h.symm

theorem popForm_of_cons (use : State → F64 → State) {s : State} {v : F64} {rest : List F64} (h : s.stack = v :: rest) :
    popForm use s = (use (s.setStack rest) v).advance 1 := by
  simp only [popForm, h]

theorem popForm_of_nil (use : State → F64 → State) {s : State} (h : s.stack = []) :
    popForm use s = s.raise .stackUnderflow := by
  simp only [popForm, h]

theorem unaryForm_of_cons (f : F64 → F64) {s : State} {a : F64} {rest : List F64} (h : s.stack = a :: rest) :
    unaryForm f s = (s.setStack (f a :: rest)).advance 1 := by
  simp only [unaryForm, h]

theorem unaryForm_of_nil (f : F64 → F64) {s : State} (h : s.stack = []) : unaryForm f s = s.raise .stackUnderflow := by
  simp only [unaryForm, h]

theorem binaryForm_of_pass {test : F64 → Option Failure} (op : F64 → F64 → F64) {s : State} {b a : F64} {rest : List F64}
    (h : s.stack = b :: a :: rest) (ht : test b = none) :
    binaryForm test op s = (s.setStack (op a b :: rest)).advance 1 := by
  simp only [binaryForm, h, ht]

theorem binaryForm_of_fail {test : F64 → Option Failure} (op : F64 → F64 → F64) {s : State} {b a : F64} {rest : List F64}
    {f : Failure} (h : s.stack = b :: a :: rest) (ht : test b = some f) : binaryForm test op s = s.raise f := by
  simp only [binaryForm, h, ht]

theorem binaryForm_of_short (test : F64 → Option Failure) (op : F64 → F64 → F64) {s : State} (h : s.sp < 2) :
    binaryForm test op s = s.raise .stackUnderflow := by
  obtain ⟨b, a, rest, hs, -⟩ | ⟨b, a, rest, f, hs, -⟩ | ⟨-, he⟩ := binaryForm_cases test op s
  · simp [State.sp, hs] at h
  · simp [State.sp, hs] at h
  · exact he

@[simp] theorem jumpForm_stack (rel : F64 → F64 → Bool) (addr : Offset) (s : State) :
    (jumpForm rel addr s).stack = s.stack := by
  rw [jumpForm_eq]

end Sys2Proof.Machine
end

/-! ## The registers (R15) -/

section
namespace Sys2Proof.Machine

/-! A write of a register commutes with every other update of the state; written outermost. -/

@[simp] theorem State.setReg_setStack (s : State) (r : Reg) (v : F64) (st : List F64) :
    (s.setReg r v).setStack st = (s.setStack st).setReg r v := by cases r <;> rfl
@[simp] theorem State.setReg_push (s : State) (r : Reg) (v w : F64) :
    (s.setReg r v).push w = (s.push w).setReg r v := by cases r <;> rfl
@[simp] theorem State.setReg_emit (s : State) (r : Reg) (v w : F64) :
    (s.setReg r v).emit w = (s.emit w).setReg r v := by cases r <;> rfl
@[simp] theorem State.setReg_advance (s : State) (r : Reg) (v : F64) (n : Offset) :
    (s.setReg r v).advance n = (s.advance n).setReg r v := by cases r <;> rfl
@[simp] theorem State.setReg_haltSuccess (s : State) (r : Reg) (v : F64) :
    (s.setReg r v).haltSuccess = s.haltSuccess.setReg r v := by cases r <;> rfl
@[simp] theorem State.setReg_raise (s : State) (r : Reg) (v : F64) (f : Failure) :
    (s.setReg r v).raise f = (s.raise f).setReg r v := by cases r <;> rfl

/-- Of two writes of one register the later one stands. -/
@[simp] theorem State.setReg_setReg_same (s : State) (r : Reg) (v w : F64) :
    (s.setReg r v).setReg r w = s.setReg r w := by cases r <;> rfl

/-- Writes of the two registers commute (R105). -/
theorem State.setReg_setReg_of_ne (s : State) {r q : Reg} (v w : F64) (h : q ≠ r) :
    (s.setReg r v).setReg q w = (s.setReg q w).setReg r v := by
  cases r <;> cases q
  · exact absurd rfl h
  · rfl
  · rfl
  · exact absurd rfl h

/-- Writing to a register what it holds changes nothing. -/
theorem State.setReg_getReg (s : State) (r : Reg) : s.setReg r (s.getReg r) = s := by cases r <;> rfl

/-- An update that commutes with every write of a register keeps that register. -/
theorem getReg_of_setReg_comm {F : State → State} {s : State} {r : Reg}
    (h : ∀ v, F (s.setReg r v) = (F s).setReg r v) : (F s).getReg r = s.getReg r := by
  have hF : F s = (F s).setReg r (s.getReg r) := by rw [← h, State.setReg_getReg]
  rw [hF, State.getReg_setReg, if_pos rfl]

theorem pushForm_setReg (w : F64) (len : Offset) (s : State) (r : Reg) (v : F64) :
    pushForm w len (s.setReg r v) = (pushForm w len s).setReg r v := by
  rcases Nat.lt_or_ge s.sp Config.stackCapacity with h | h
  · rw [pushForm_of_room h, pushForm_of_room (by simpa using h)]
    simp
  · rw [pushForm_of_full h, pushForm_of_full (by simpa using h)]
    simp

/-- A pop whose use of the value commutes with the write of a register commutes with it too. -/
theorem popForm_setReg {use : State → F64 → State} {r : Reg} {v : F64}
    (huse : ∀ u w, use (u.setReg r v) w = (use u w).setReg r v) (s : State) :
    popForm use (s.setReg r v) = (popForm use s).setReg r v := by
  cases h : s.stack with
  | nil => simp [popForm_of_nil use h, popForm_of_nil use (s := s.setReg r v) (by simpa using h)]
  | cons w rest =>
    rw [popForm_of_cons use h, popForm_of_cons use (s := s.setReg r v) (by simpa using h)]
    simp [huse]

theorem unaryForm_setReg (f : F64 → F64) (s : State) (r : Reg) (v : F64) :
    unaryForm f (s.setReg r v) = (unaryForm f s).setReg r v := by
  cases h : s.stack with
  | nil => simp [unaryForm_of_nil f h, unaryForm_of_nil f (s := s.setReg r v) (by simpa using h)]
  | cons a rest =>
    rw [unaryForm_of_cons f h, unaryForm_of_cons f (s := s.setReg r v) (by simpa using h)]
    simp

theorem binaryForm_setReg (test : F64 → Option Failure) (op : F64 → F64 → F64) (s : State) (r : Reg) (v : F64) :
    binaryForm test op (s.setReg r v) = (binaryForm test op s).setReg r v := by
  obtain ⟨b, a, rest, hs, ht, he⟩ | ⟨b, a, rest, f, hs, ht, he⟩ | ⟨hs, he⟩ := binaryForm_cases test op s
  · rw [he, binaryForm_of_pass op (s := s.setReg r v) (by simpa using hs) ht]
    simp
  · rw [he, binaryForm_of_fail op (s := s.setReg r v) (by simpa using hs) ht]
    simp
  · rw [he, binaryForm_of_short test op (by simpa using hs)]
    simp

/-- A jump writes no register. -/
theorem jumpForm_getReg (rel : F64 → F64 → Bool) (addr : Offset) (s : State) (r : Reg) :
    (jumpForm rel addr s).getReg r = s.getReg r := by
  rw [jumpForm_eq]
  cases r <;> rfl

/-- The instruction that pops into a register (R100, R102). -/
def storeOf : Reg → Instr
  | .r1 => .st1
  | .r2 => .st2

/-- The instruction that pushes a register (R101, R103). -/
def loadOf : Reg → Instr
  | .r1 => .ld1
  | .r2 => .ld2

theorem effect_storeOf (r : Reg) (s : State) : effect (storeOf r) s = popForm (fun t v => t.setReg r v) s := by
  cases r <;> rfl

/-- A store to the other register commutes with the write of a register. -/
theorem effect_storeOf_setReg {q r : Reg} (h : q ≠ r) (s : State) (v : F64) :
    effect (storeOf q) (s.setReg r v) = (effect (storeOf q) s).setReg r v := by
  rw [effect_storeOf, effect_storeOf]
  exact popForm_setReg (fun u w => u.setReg_setReg_of_ne v w h) s

/-- An instruction that neither loads a register, nor stores to it, nor jumps is independent of it. -/
theorem effect_setReg {i : Instr} {r : Reg} (hjump : readsBoth i = false) (hload : i ≠ loadOf r) (hstore : i ≠ storeOf r)
    (s : State) (v : F64) : effect i (s.setReg r v) = (effect i s).setReg r v := by
  cases i with
  | halt | nop => simp [effect]
  | dconstM1 | dconst0 | dconst1 | dconst2 | dconst _ => exact pushForm_setReg ..
  | jeq _ | jne _ | jlt _ | jle _ | jgt _ | jge _ => exact nomatch hjump
  | add | sub | mul => exact binaryForm_setReg noTest _ s r v
  | div => exact binaryForm_setReg zeroTest f64Div s r v
  | neg => exact unaryForm_setReg ..
  | print => exact popForm_setReg (fun u w => u.setReg_emit r v w) s
  | st1 =>
    cases r with
    | r1 => exact absurd rfl hstore
    | r2 => exact effect_storeOf_setReg (q := .r1) (r := .r2) nofun s v
  | st2 =>
    cases r with
    | r1 => exact effect_storeOf_setReg (q := .r2) (r := .r1) nofun s v
    | r2 => exact absurd rfl hstore
  | ld1 =>
    cases r with
    | r1 => exact absurd rfl hload
    | r2 => exact pushForm_setReg ..
  | ld2 =>
    cases r with
    | r1 => exact pushForm_setReg ..
    | r2 => exact absurd rfl hload

/-- Only the store to a register writes it. -/
theorem effect_getReg {i : Instr} {r : Reg} (hstore : i ≠ storeOf r) (s : State) :
    (effect i s).getReg r = s.getReg r := by
  cases i with
  | jeq _ | jne _ | jlt _ | jle _ | jgt _ | jge _ => exact jumpForm_getReg ..
  | ld1 => exact getReg_of_setReg_comm (F := pushForm s.r1 1) (pushForm_setReg s.r1 1 s r)
  | ld2 => exact getReg_of_setReg_comm (F := pushForm s.r2 1) (pushForm_setReg s.r2 1 s r)
  | halt | nop | dconstM1 | dconst0 | dconst1 | dconst2 | dconst _ | add | sub | mul | div | neg | print | st1 | st2 =>
    exact getReg_of_setReg_comm (effect_setReg rfl (by cases r <;> nofun) hstore s)

/-- A store that completes does not depend on the register it writes. -/
theorem effect_storeOf_setReg_same {s : State} (h : 0 < s.sp) (r : Reg) (v : F64) :
    effect (storeOf r) (s.setReg r v) = effect (storeOf r) s := by
  obtain ⟨w, rest, hs⟩ := List.exists_cons_of_length_pos h
  rw [effect_storeOf, effect_storeOf, popForm_of_cons _ hs, popForm_of_cons _ (s := s.setReg r v) (by simpa using hs)]
  simp

/-- Settles O52: an instruction that does not name a register commutes with writing it. -/
theorem registersFrame : Obligations.RegistersFrame := by
  refine ⟨fun i s t h => ?_, fun i s t v hjump h => ?_, fun s v h => ?_⟩
  · obtain rfl := eq_effect_of_exec h
    exact ⟨fun hi => effect_getReg (r := .r1) hi s, fun hi => effect_getReg (r := .r2) hi s⟩
  · obtain rfl := eq_effect_of_exec h
    simp only [exec_eq_effect, Host.Outcome.next.injEq]
    exact ⟨fun hload hstore => effect_setReg (r := .r1) hjump hload hstore s v,
      fun hload hstore => effect_setReg (r := .r2) hjump hload hstore s v⟩
  · simp only [exec_eq_effect, Host.Outcome.next.injEq]
    exact ⟨effect_storeOf_setReg_same h .r1 v, effect_storeOf_setReg_same h .r2 v⟩

end Sys2Proof.Machine
end

/-! ## The stack (R21) -/

section
namespace Sys2Proof.Machine

/-! ### The slots below the two topmost -/

/-- `s'` is `s` with the bottom of its stack, `below`, exchanged for `below'`. -/
def SameAbove (below below' : List F64) (s s' : State) : Prop :=
  ∃ top, s.stack = top ++ below ∧ s' = s.setStack (top ++ below')

section
variable {below below' : List F64} {s s' : State}

theorem SameAbove.setStack (h : SameAbove below below' s s') (top : List F64) :
    SameAbove below below' (s.setStack (top ++ below)) (s'.setStack (top ++ below')) := by
  obtain ⟨-, -, rfl⟩ := h
  exact ⟨top, rfl, rfl⟩

theorem SameAbove.push (h : SameAbove below below' s s') (v : F64) :
    SameAbove below below' (s.push v) (s'.push v) := by
  obtain ⟨top, hs, rfl⟩ := h
  exact ⟨v :: top, by simp [hs], rfl⟩

theorem SameAbove.advance (h : SameAbove below below' s s') (n : Offset) :
    SameAbove below below' (s.advance n) (s'.advance n) := by
  obtain ⟨top, hs, rfl⟩ := h
  exact ⟨top, hs, rfl⟩

theorem SameAbove.haltSuccess (h : SameAbove below below' s s') :
    SameAbove below below' s.haltSuccess s'.haltSuccess := by
  obtain ⟨top, hs, rfl⟩ := h
  exact ⟨top, hs, rfl⟩

theorem SameAbove.emit (h : SameAbove below below' s s') (v : F64) :
    SameAbove below below' (s.emit v) (s'.emit v) := by
  obtain ⟨top, hs, rfl⟩ := h
  exact ⟨top, hs, rfl⟩

theorem SameAbove.setReg (h : SameAbove below below' s s') (r : Reg) (v : F64) :
    SameAbove below below' (s.setReg r v) (s'.setReg r v) := by
  obtain ⟨top, hs, rfl⟩ := h
  exact ⟨top, by simpa using hs, by simp⟩

theorem SameAbove.raise (h : SameAbove below below' s s') (f : Failure) :
    SameAbove below below' (s.raise f) (s'.raise f) := by
  obtain ⟨top, hs, rfl⟩ := h
  exact ⟨top, hs, rfl⟩

/-- Exchanging the bottom for one of the same length keeps the depth. -/
theorem SameAbove.sp_eq (h : SameAbove below below' s s') (hlen : below'.length = below.length) : s'.sp = s.sp := by
  obtain ⟨top, hs, rfl⟩ := h
  simp [State.sp, hs, hlen]

theorem SameAbove.pushForm (h : SameAbove below below' s s') (hlen : below'.length = below.length) (v : F64)
    (len : Offset) : SameAbove below below' (pushForm v len s) (pushForm v len s') := by
  have hsp := h.sp_eq hlen
  rcases Nat.lt_or_ge s.sp Config.stackCapacity with hroom | hfull
  · rw [pushForm_of_room hroom, pushForm_of_room (hsp ▸ hroom)]
    exact (h.push v).advance len
  · rw [pushForm_of_full hfull, pushForm_of_full (hsp ▸ hfull)]
    exact h.raise _

/-- A jump reads no slot. -/
theorem SameAbove.jumpForm (h : SameAbove below below' s s') (rel : F64 → F64 → Bool) (addr : Offset) :
    SameAbove below below' (jumpForm rel addr s) (jumpForm rel addr s') := by
  obtain ⟨top, hs, rfl⟩ := h
  exact ⟨top, by simpa using hs, by simp only [jumpForm_eq]; rfl⟩

end

section
variable {below : List F64} {s : State} {b a : F64}

/-- Two states whose stacks agree in the two topmost slots. -/
theorem sameAbove_of_two (h : s.stack = b :: a :: below) (below' : List F64) :
    SameAbove below below' s (s.setStack (b :: a :: below')) := ⟨[b, a], h, rfl⟩

theorem popForm_sameAbove {use : State → F64 → State} {below' : List F64}
    (huse : ∀ {u u'} w, SameAbove below below' u u' → SameAbove below below' (use u w) (use u' w))
    (h : s.stack = b :: a :: below) :
    SameAbove below below' (popForm use s) (popForm use (s.setStack (b :: a :: below'))) := by
  rw [popForm_of_cons use h, popForm_of_cons use (State.setStack_stack ..)]
  exact (huse b ((sameAbove_of_two h below').setStack [a])).advance 1

theorem unaryForm_sameAbove (f : F64 → F64) (h : s.stack = b :: a :: below) (below' : List F64) :
    SameAbove below below' (unaryForm f s) (unaryForm f (s.setStack (b :: a :: below'))) := by
  rw [unaryForm_of_cons f h, unaryForm_of_cons f (State.setStack_stack ..)]
  exact ((sameAbove_of_two h below').setStack [f b, a]).advance 1

theorem binaryForm_sameAbove (test : F64 → Option Failure) (op : F64 → F64 → F64) (h : s.stack = b :: a :: below)
    (below' : List F64) :
    SameAbove below below' (binaryForm test op s) (binaryForm test op (s.setStack (b :: a :: below'))) := by
  cases ht : test b with
  | none =>
    rw [binaryForm_of_pass op h ht, binaryForm_of_pass op (State.setStack_stack ..) ht]
    exact ((sameAbove_of_two h below').setStack [op a b]).advance 1
  | some f =>
    rw [binaryForm_of_fail op h ht, binaryForm_of_fail op (State.setStack_stack ..) ht]
    exact (sameAbove_of_two h below').raise f

/-- The slots below the two topmost are kept by every instruction and have no influence on it. -/
theorem effect_sameAbove (i : Instr) {below' : List F64} (h : s.stack = b :: a :: below)
    (hlen : below'.length = below.length) :
    SameAbove below below' (effect i s) (effect i (s.setStack (b :: a :: below'))) := by
  have hrel := sameAbove_of_two h below'
  cases i with
  | halt => exact (hrel.advance 1).haltSuccess
  | nop => exact hrel.advance 1
  | dconstM1 | dconst0 | dconst1 | dconst2 | dconst _ | ld1 | ld2 => exact hrel.pushForm hlen ..
  | jeq _ | jne _ | jlt _ | jle _ | jgt _ | jge _ => exact hrel.jumpForm ..
  | add | sub | mul | div => exact binaryForm_sameAbove _ _ h below'
  | neg => exact unaryForm_sameAbove f64Neg h below'
  | print => exact popForm_sameAbove (fun w hu => hu.emit w) h
  | st1 => exact popForm_sameAbove (fun w hu => hu.setReg .r1 w) h
  | st2 => exact popForm_sameAbove (fun w hu => hu.setReg .r2 w) h

end

/-- The slots of the bottom of the stack. -/
theorem State.slot_of_append {s : State} {top below : List F64} (h : s.stack = top ++ below) {k : Nat}
    (hk : k < below.length) : s.slot k = below.reverse[k]? := by
  rw [State.slot, h, List.reverse_append, List.getElem?_append_left (by simpa using hk)]

theorem effect_slot (i : Instr) (s : State) {k : Nat} (hk : k + 2 < s.sp) : (effect i s).slot k = s.slot k := by
  rcases hs : s.stack with _ | ⟨b, _ | ⟨a, below⟩⟩
  · simp [State.sp, hs] at hk
  · simp [State.sp, hs] at hk
  · have hk' : k < below.length := by simpa [State.sp, hs] using hk
    obtain ⟨top, ht, -⟩ := effect_sameAbove i hs rfl
    rw [State.slot_of_append ht hk', State.slot_of_append (top := [b, a]) hs hk']

/-! ### The depth -/

/-- The depths of two states differ by at most one. -/
def DepthByOne (s t : State) : Prop := t.sp ≤ s.sp + 1 ∧ s.sp ≤ t.sp + 1

theorem depthByOne_of_sp_eq {s t : State} (h : t.sp = s.sp) : DepthByOne s t := by
  simp [DepthByOne, h]

theorem pushForm_depthByOne (v : F64) (len : Offset) (s : State) : DepthByOne s (pushForm v len s) := by
  obtain ⟨-, he⟩ | ⟨-, he⟩ := pushForm_cases v len s
  · simp [DepthByOne, he, Nat.le_add_right_of_le]
  · exact depthByOne_of_sp_eq (by simp [he])

theorem popForm_depthByOne {use : State → F64 → State} (huse : ∀ u w, (use u w).stack = u.stack) (s : State) :
    DepthByOne s (popForm use s) := by
  obtain ⟨v, rest, hs, he⟩ | ⟨-, he⟩ := popForm_cases use s
  · simp [DepthByOne, State.sp, he, hs, huse, Nat.le_add_right_of_le]
  · exact depthByOne_of_sp_eq (by simp [he])

theorem unaryForm_depthByOne (f : F64 → F64) (s : State) : DepthByOne s (unaryForm f s) := by
  obtain ⟨a, rest, hs, he⟩ | ⟨-, he⟩ := unaryForm_cases f s
  · exact depthByOne_of_sp_eq (by simp [State.sp, he, hs])
  · exact depthByOne_of_sp_eq (by simp [he])

theorem binaryForm_depthByOne (test : F64 → Option Failure) (op : F64 → F64 → F64) (s : State) :
    DepthByOne s (binaryForm test op s) := by
  obtain ⟨b, a, rest, hs, -, he⟩ | ⟨_, _, _, _, -, -, he⟩ | ⟨-, he⟩ := binaryForm_cases test op s
  · simp [DepthByOne, State.sp, he, hs]
  · exact depthByOne_of_sp_eq (by simp [he])
  · exact depthByOne_of_sp_eq (by simp [he])

/-- HALT, NOP and the jumps keep the stack. -/
theorem effect_stack_of_leavesStack {i : Instr} (h : leavesStack i = true) (s : State) :
    (effect i s).stack = s.stack := by
  cases i with
  | halt | nop => rfl
  | jeq _ | jne _ | jlt _ | jle _ | jgt _ | jge _ => exact jumpForm_stack ..
  | _ => exact nomatch h

theorem effect_depthByOne (i : Instr) (s : State) : DepthByOne s (effect i s) := by
  cases i with
  | halt | nop | jeq _ | jne _ | jlt _ | jle _ | jgt _ | jge _ =>
    exact depthByOne_of_sp_eq (congrArg List.length (effect_stack_of_leavesStack rfl s))
  | dconstM1 | dconst0 | dconst1 | dconst2 | dconst _ | ld1 | ld2 => exact pushForm_depthByOne ..
  | add | sub | mul | div => exact binaryForm_depthByOne ..
  | neg => exact unaryForm_depthByOne ..
  | print => exact popForm_depthByOne (use := State.emit) (fun _ _ => rfl) s
  | st1 => exact popForm_depthByOne (use := fun u w => u.setReg .r1 w) (fun _ _ => rfl) s
  | st2 => exact popForm_depthByOne (use := fun u w => u.setReg .r2 w) (fun _ _ => rfl) s

/-- Settles O54: exchanging the bottom of the stack before an instruction is exchanging it after. -/
theorem stackFrame : Obligations.StackFrame := by
  refine ⟨fun i s t h => ?_, fun i s t b a below below' hs hlen h => ?_⟩
  · obtain rfl := eq_effect_of_exec h
    obtain ⟨hup, hdown⟩ := effect_depthByOne i s
    exact ⟨fun _ hk => effect_slot i s hk, hup, hdown, fun hi => effect_stack_of_leavesStack hi s⟩
  · obtain rfl := eq_effect_of_exec h
    obtain ⟨top, htop, hexchange⟩ := effect_sameAbove i hs hlen
    exact ⟨top, htop, (exec_eq_effect ..).trans (congrArg _ hexchange)⟩

end Sys2Proof.Machine
end

/-! SUPPORT. The proofs of the statements of spec/20_memory: the stream no step changes (R35) and the byte order of a jump's
operand (R36). -/

/-! ## The stream (R35) -/

section
namespace Sys2Proof.Machine

/-- `t` is bound to the stream `s` is bound to: the same bytes, the same length. -/
def SameStream (s t : State) : Prop := t.stream = s.stream ∧ t.streamLen = s.streamLen

theorem pushForm_sameStream (v : F64) (len : Offset) (s : State) : SameStream s (pushForm v len s) := by
  obtain ⟨-, he⟩ | ⟨-, he⟩ := pushForm_cases v len s <;> simp [SameStream, he]

/-- A pop keeps the stream when its use of the value does. -/
theorem popForm_sameStream {use : State → F64 → State} (huse : ∀ u v, SameStream u (use u v)) (s : State) :
    SameStream s (popForm use s) := by
  obtain ⟨v, rest, -, he⟩ | ⟨-, he⟩ := popForm_cases use s
  · rw [he]
    exact huse (s.setStack rest) v
  · simp [SameStream, he]

theorem unaryForm_sameStream (f : F64 → F64) (s : State) : SameStream s (unaryForm f s) := by
  obtain ⟨_, _, -, he⟩ | ⟨-, he⟩ := unaryForm_cases f s <;> simp [SameStream, he]

theorem binaryForm_sameStream (test : F64 → Option Failure) (op : F64 → F64 → F64) (s : State) :
    SameStream s (binaryForm test op s) := by
  obtain ⟨_, _, _, -, -, he⟩ | ⟨_, _, _, _, -, -, he⟩ | ⟨-, he⟩ := binaryForm_cases test op s <;> simp [SameStream, he]

theorem jumpForm_sameStream (rel : F64 → F64 → Bool) (addr : Offset) (s : State) :
    SameStream s (jumpForm rel addr s) := by
  simp [SameStream, jumpForm_eq]

/-- No instruction writes the stream or its length. -/
theorem effect_sameStream (i : Instr) (s : State) : SameStream s (effect i s) := by
  cases i with
  | halt | nop => exact ⟨rfl, rfl⟩
  | dconstM1 | dconst0 | dconst1 | dconst2 | dconst _ | ld1 | ld2 => exact pushForm_sameStream ..
  | jeq _ | jne _ | jlt _ | jle _ | jgt _ | jge _ => exact jumpForm_sameStream ..
  | add | sub | mul | div => exact binaryForm_sameStream ..
  | neg => exact unaryForm_sameStream ..
  | print => exact popForm_sameStream (use := State.emit) (fun _ _ => ⟨rfl, rfl⟩) s
  | st1 => exact popForm_sameStream (use := fun u v => u.setReg .r1 v) (fun _ _ => ⟨rfl, rfl⟩) s
  | st2 => exact popForm_sameStream (use := fun u v => u.setReg .r2 v) (fun _ _ => ⟨rfl, rfl⟩) s

/-- A step writes the stream neither where it raises a failure of the fetch nor where it executes an instruction. -/
theorem step_sameStream {s t : State} (h : step s = .next t) : SameStream s t := by
  obtain ⟨-, ⟨f, -, rfl⟩ | ⟨i, -, hexec⟩⟩ := step_next_cases h
  · exact ⟨State.raise_stream s f, State.raise_streamLen s f⟩
  · obtain rfl := eq_effect_of_exec hexec
    exact effect_sameStream i s

/-- Settles O4: a read depends on the stream and its length alone, and a step keeps both. -/
theorem stepKeepsTheStream : Obligations.StepKeepsTheStream := by
  intro s t h
  obtain ⟨hstream, hlen⟩ := step_sameStream h
  exact ⟨hlen, congrFun (imemRead_congr s t hstream hlen)⟩

end Sys2Proof.Machine
end

/-! ## The jump operand (R36, R53) -/

section
namespace Sys2Proof.Machine

/-- Under an opcode of format J the decoder takes the next four bytes as the operand (R50). -/
theorem decode_of_formJ {op : Byte} {make : Offset → Instr} (h : opcodeForm op = some (.j make)) (b0 b1 b2 b3 : Byte)
    (rest : List Byte) :
    decode (op :: b0 :: b1 :: b2 :: b3 :: rest) = .instr (make (u32OfWire Config.u32WireOrder b0 b1 b2 b3)) rest := by
  simp only [decode, h]

/-- Settles O10: the operand is assembled big-endian, and all six jumps are of format J. -/
theorem jumpOperandBigEndian : Obligations.JumpOperandBigEndian := by
  intro b0 b1 b2 b3 rest
  refine ⟨u32OfWire Config.u32WireOrder b0 b1 b2 b3, u32OfWire_toNat b0 b1 b2 b3, ?_⟩
  simp only [List.forall_mem_cons]
  exact ⟨decode_of_formJ opcodeForm_jeq .., decode_of_formJ opcodeForm_jne .., decode_of_formJ opcodeForm_jlt ..,
    decode_of_formJ opcodeForm_jle .., decode_of_formJ opcodeForm_jgt .., decode_of_formJ opcodeForm_jge ..,
    List.forall_mem_nil _⟩

end Sys2Proof.Machine
end

/-! SUPPORT. The proofs of the statements of spec/30_encoding on the operand widths (R51) and the illegal bytes (R55). -/

/-! ## The decoder, by the form found under the opcode byte -/

section
namespace Sys2Proof

/-- `i` is an instruction of the form: the one it names, or what it makes of some operand. -/
def Form.Makes (i : Instr) : Form → Prop
  | .z i' => i = i'
  | .j make => ∃ addr, i = make addr
  | .d make => ∃ imm, i = make imm

/-- The bytes without a form are those of no row of the opcode map. -/
theorem opcodeForm_eq_none_iff {op : Byte} : opcodeForm op = none ↔ ∀ r ∈ opcodeTable, r.opcode ≠ op := by
  simp [opcodeForm]

/-- Row by row, the map of the decoder agrees with the encoder (R58). -/
theorem opcodeOf_of_row : ∀ r ∈ opcodeTable, ∀ i, r.form.Makes i → opcodeOf i = r.opcode := by
  simp [opcodeTable, Form.Makes, opcodeOf]

theorem opcodeOf_of_makes {op : Byte} {f : Form} {i : Instr} (hf : opcodeForm op = some f) (hi : f.Makes i) :
    opcodeOf i = op :=
  opcodeOf_of_row _ (opcodeForm_mem hf) i hi

theorem operandWidth_of_form {op : Byte} {f : Form} (h : opcodeForm op = some f) :
    operandWidth op = some (formWidth f) := by
  simp [operandWidth, h]

theorem operandWidth_of_noForm {op : Byte} (h : opcodeForm op = none) : operandWidth op = none := by
  simp [operandWidth, h]

/-- An instruction is its opcode byte and as many bytes as the form found under that byte has operand bytes (R49). -/
theorem instrLength_of_makes {op : Byte} {f : Form} {i : Instr} (hf : opcodeForm op = some f) (hi : f.Makes i) :
    instrLength i = 1 + formWidth f := by
  have hw : formWidth f = instrLength i - 1 := by
    have h := operandWidth_opcodeOf i
    rw [opcodeOf_of_makes hf hi, operandWidth_of_form hf] at h
    exact Option.some.inj h
  have := instrLength_cases i
  omega

/-- What the decoder accepts: an instruction of the form found under the opcode byte, and it skips that form's width. -/
theorem form_of_decode {op : Byte} {bytes rest : List Byte} {i : Instr} (h : decode (op :: bytes) = .instr i rest) :
    ∃ f, opcodeForm op = some f ∧ f.Makes i ∧ rest = bytes.drop (formWidth f) := by
  cases hf : opcodeForm op with
  | none => simp [decode, hf] at h
  | some f =>
    refine ⟨f, rfl, ?_⟩
    cases f with
    | z i' =>
      simp only [decode, hf, DecodeResult.instr.injEq] at h
      obtain ⟨rfl, rfl⟩ := h
      exact ⟨rfl, rfl⟩
    | j make =>
      simp only [decode, hf] at h
      split at h
      · obtain ⟨rfl, rfl⟩ := DecodeResult.instr.inj h
        exact ⟨⟨_, rfl⟩, rfl⟩
      · exact nomatch h
    | d make =>
      simp only [decode, hf] at h
      split at h
      · obtain ⟨rfl, rfl⟩ := DecodeResult.instr.inj h
        exact ⟨⟨_, rfl⟩, rfl⟩
      · exact nomatch h

theorem decode_of_noForm {op : Byte} (h : opcodeForm op = none) (bytes : List Byte) :
    decode (op :: bytes) = .illegalOpcode op := by
  simp only [decode, h]

end Sys2Proof
end

/-! ## The operand widths (R51) -/

section
namespace Sys2Proof.Machine

/-- The width table of R51, by the opcodes of each format. -/
def listedWidth (op : Byte) : Option Nat :=
  if op = 0x0F then some 8 else if op ∈ jOpcodes then some 4 else if op ∈ zOpcodes then some 0 else none

/-- Every row of the opcode map has the width R51 lists for its opcode. -/
theorem listedWidth_of_row : ∀ r ∈ opcodeTable, listedWidth r.opcode = some (formWidth r.form) := by
  simp [opcodeTable, listedWidth, formWidth, jumpOpcode, jOpcodes, zOpcodes]

/-- Every opcode R51 lists has a row in the opcode map. -/
theorem row_of_listed : ∀ op ∈ 0x0F :: jOpcodes ++ zOpcodes, ∃ r ∈ opcodeTable, r.opcode = op := by
  simp [opcodeTable, jumpOpcode, jOpcodes, zOpcodes]

theorem listedWidth_of_noForm {op : Byte} (h : opcodeForm op = none) : listedWidth op = none := by
  have hnot : op ∉ 0x0F :: jOpcodes ++ zOpcodes := fun hop =>
    have ⟨r, hr, hro⟩ := row_of_listed op hop
    opcodeForm_eq_none_iff.1 h r hr hro
  obtain ⟨hd, hj, hz⟩ : op ≠ 0x0F ∧ op ∉ jOpcodes ∧ op ∉ zOpcodes := by simpa using hnot
  simp only [listedWidth, if_neg hd, if_neg hj, if_neg hz]

/-- The decoder's width is the width R51 lists. -/
theorem operandWidth_eq_listedWidth (op : Byte) : operandWidth op = listedWidth op := by
  cases h : opcodeForm op with
  | none => rw [operandWidth_of_noForm h, listedWidth_of_noForm h]
  | some f => rw [operandWidth_of_form h, listedWidth_of_row _ (opcodeForm_mem h)]

/-- Settles O9: the width is that of the form found under the opcode byte, and each form skips its own width. -/
theorem operandWidths : Obligations.OperandWidths := by
  refine ⟨operandWidth_eq_listedWidth, fun op bytes rest i h => ?_⟩
  obtain ⟨f, hf, hi, hrest⟩ := form_of_decode h
  exact ⟨formWidth f, operandWidth_of_form hf, instrLength_of_makes hf hi, hrest⟩

end Sys2Proof.Machine
end

/-! ## The illegal bytes (R55) -/

section
namespace Sys2Proof.Machine

/-- The ranges of R55 are the gaps between the 23 opcodes of R52. -/
theorem isIllegalByte_iff_noRow (op : Byte) : isIllegalByte op = true ↔ ∀ r ∈ opcodeTable, r.opcode ≠ op := by
  have hlt := op.isLt
  simp only [isIllegalByte, opcodeTable, jumpOpcode, List.mem_cons, List.not_mem_nil, or_false, forall_eq_or_imp, forall_eq,
    Bool.or_eq_true, Bool.and_eq_true, decide_eq_true_eq, beq_iff_eq, ne_eq, ← BitVec.toNat_inj, BitVec.ofNat_eq_ofNat,
    BitVec.toNat_ofNat, Nat.reducePow, Nat.reduceMod, Nat.zero_mod]
  omega

theorem opcodeForm_eq_none_iff_illegal (op : Byte) : opcodeForm op = none ↔ isIllegalByte op = true :=
  opcodeForm_eq_none_iff.trans (isIllegalByte_iff_noRow op).symm

theorem illegalBytes_count : ((List.range 256).filter fun n => isIllegalByte (BitVec.ofNat 8 n)).length = 233 := by
  decide +kernel

/-- The fetch begins with the byte the read port gives at `pc`. -/
theorem fetchBytes_eq_cons {s : State} {op : Byte} (h : imemRead s s.pc.toNat = some op) :
    ∃ bytes, fetchBytes s = op :: bytes := by
  have hhead : (fetchBytes s)[0]? = some op := (fetchBytes_getElem? s 0 (by omega)).trans h
  exact List.head?_eq_some_iff.1 (List.head?_eq_getElem?.trans hhead)

/-- The fetch refuses a byte of no form by its name: test (3) of R57. -/
theorem fetch_of_noForm {s : State} {op : Byte} (hread : imemRead s s.pc.toNat = some op) (hop : opcodeForm op = none) :
    fetch s = .fail (.invalidOpcode op) := by
  obtain ⟨bytes, hbytes⟩ := fetchBytes_eq_cons hread
  simp only [fetch, hbytes, decode_of_noForm hop]

/-- Settles O12: the illegal bytes are those without a form, and the fetch refuses such a byte wherever it stands. -/
theorem illegalBytesFail : Obligations.IllegalBytesFail := by
  refine ⟨opcodeForm_eq_none_iff_illegal, illegalBytes_count, fun op hop => ?_, fun s op hrun hread hop => ?_⟩
  · exact operandWidth_of_noForm ((opcodeForm_eq_none_iff_illegal op).2 hop)
  · exact step_of_fail hrun (fetch_of_noForm hread ((opcodeForm_eq_none_iff_illegal op).2 hop))

end Sys2Proof.Machine
end

/-! SUPPORT. The proofs of the statements of spec/40_halt_nop: HALT (R64) and NOP (R65). -/

/-! ## The opcode alone, and the end of the stream -/

section
namespace Sys2Proof

/-- Under an opcode of format Z the decoder gives the instruction and skips the opcode alone (R50). -/
theorem decode_of_formZ {op : Byte} {i : Instr} (h : opcodeForm op = some (.z i)) (bytes : List Byte) :
    decode (op :: bytes) = .instr i bytes := by
  simp only [decode, h]

end Sys2Proof

namespace Sys2Proof.Machine

theorem decode_of_illegal {op : Byte} (h : isIllegalByte op = true) (bytes : List Byte) :
    decode (op :: bytes) = .illegalOpcode op :=
  decode_of_noForm ((opcodeForm_eq_none_iff_illegal op).2 h) bytes

/-- At the end of the stream or past it the fetch reads nothing: test (1) of R57. -/
theorem fetch_of_pastEnd {s : State} (h : s.streamLen.toNat ≤ s.pc.toNat) : fetch s = .fail .truncatedStream := by
  have hnone : fetchBytes s = [] := List.eq_nil_of_length_eq_zero (by rw [fetchBytes_length]; omega)
  simp only [fetch, hnone, decode]

end Sys2Proof.Machine
end

/-! ## HALT alone ends a run well (R64) -/

section
namespace Sys2Proof.Machine

/-- `t` has the status of `s`, or has failed. -/
def StatusKeptOrFailed (s t : State) : Prop := t.status = s.status ∨ t.status = .haltedFailure

theorem pushForm_statusKeptOrFailed (v : F64) (len : Offset) (s : State) : StatusKeptOrFailed s (pushForm v len s) := by
  obtain ⟨-, he⟩ | ⟨-, he⟩ := pushForm_cases v len s
  · exact .inl (by simp [he])
  · exact .inr (by simp [he])

/-- A pop keeps the status or fails when its use of the value keeps the status. -/
theorem popForm_statusKeptOrFailed {use : State → F64 → State} (huse : ∀ u v, (use u v).status = u.status) (s : State) :
    StatusKeptOrFailed s (popForm use s) := by
  obtain ⟨v, rest, -, he⟩ | ⟨-, he⟩ := popForm_cases use s
  · exact .inl (by simp [he, huse])
  · exact .inr (by simp [he])

theorem unaryForm_statusKeptOrFailed (f : F64 → F64) (s : State) : StatusKeptOrFailed s (unaryForm f s) := by
  obtain ⟨_, _, -, he⟩ | ⟨-, he⟩ := unaryForm_cases f s
  · exact .inl (by simp [he])
  · exact .inr (by simp [he])

theorem binaryForm_statusKeptOrFailed (test : F64 → Option Failure) (op : F64 → F64 → F64) (s : State) :
    StatusKeptOrFailed s (binaryForm test op s) := by
  obtain ⟨_, _, _, -, -, he⟩ | ⟨_, _, _, _, -, -, he⟩ | ⟨-, he⟩ := binaryForm_cases test op s
  · exact .inl (by simp [he])
  · exact .inr (by simp [he])
  · exact .inr (by simp [he])

theorem jumpForm_statusKeptOrFailed (rel : F64 → F64 → Bool) (addr : Offset) (s : State) :
    StatusKeptOrFailed s (jumpForm rel addr s) := .inl (by rw [jumpForm_eq])

/-- Every instruction but HALT keeps the status or fails. -/
theorem effect_statusKeptOrFailed {i : Instr} (hi : i ≠ .halt) (s : State) : StatusKeptOrFailed s (effect i s) := by
  cases i with
  | halt => exact absurd rfl hi
  | nop => exact .inl rfl
  | dconstM1 | dconst0 | dconst1 | dconst2 | dconst _ | ld1 | ld2 => exact pushForm_statusKeptOrFailed ..
  | jeq _ | jne _ | jlt _ | jle _ | jgt _ | jge _ => exact jumpForm_statusKeptOrFailed ..
  | add | sub | mul | div => exact binaryForm_statusKeptOrFailed ..
  | neg => exact unaryForm_statusKeptOrFailed ..
  | print => exact popForm_statusKeptOrFailed (use := State.emit) (fun _ _ => rfl) s
  | st1 => exact popForm_statusKeptOrFailed (use := fun u v => u.setReg .r1 v) (fun _ _ => rfl) s
  | st2 => exact popForm_statusKeptOrFailed (use := fun u v => u.setReg .r2 v) (fun _ _ => rfl) s

/-- An instruction that leads to HaltedSuccess from another status is HALT. -/
theorem eq_halt_of_effect_haltedSuccess {i : Instr} {s : State} (hs : s.status ≠ .haltedSuccess)
    (ht : (effect i s).status = .haltedSuccess) : i = .halt := by
  by_contra hi
  obtain hkept | hfailed := effect_statusKeptOrFailed hi s
  · exact hs (hkept.symm.trans ht)
  · exact nomatch hfailed.symm.trans ht

/-- A halted core has no next state (R134). -/
theorem step_ne_next_of_halted {s : State} (hs : s.status ≠ .running) (u : State) : step s ≠ .next u := by
  rw [step_of_halted hs]
  nofun

/-- Settles O26: HALT writes `pc` and status, every other instruction keeps the status or fails, and a fetch at the end of
the stream fails. -/
theorem haltRule : Obligations.HaltRule := by
  refine ⟨decode_of_formZ opcodeForm_halt, fun s => ?_, fun i s t h hs ht => ?_, fun s hrun hend => ?_⟩
  · exact ⟨effect .halt s, exec_eq_effect .halt s, rfl, step_ne_next_of_halted nofun⟩
  · obtain rfl := eq_effect_of_exec h
    exact eq_halt_of_effect_haltedSuccess hs ht
  · exact step_of_fail hrun (fetch_of_pastEnd hend)

end Sys2Proof.Machine
end

/-! ## NOP (R65) -/

section
namespace Sys2Proof.Machine

/-- Settles O27: NOP is of format Z and advances `pc` past its byte; its neighbours lie in the illegal ranges. -/
theorem nopRule : Obligations.NopRule := by
  refine ⟨decode_of_formZ opcodeForm_nop, exec_eq_effect .nop, fun rest => ?_⟩
  exact ⟨decode_of_illegal (by decide) rest, decode_of_illegal (by decide) rest⟩

end Sys2Proof.Machine
end

/-! SUPPORT. The proof of the statement of spec/43_arithmetic on the order of the operands (R91). -/

/-! ## The divisor test of DIV (R95) -/

section
namespace Sys2Proof.Machine

theorem unitsOf_eq_zero_iff (mag : Nat) : unitsOf mag = 0 ↔ mag = 0 := by
  rw [unitsOf, finiteUnits]
  split
  · omega
  · have hpos : 0 < (2 ^ 52 + mag % 2 ^ 52) * 2 ^ (mag / 2 ^ 52 - 1) := by positivity
    omega

theorem signed_eq_zero_iff (neg : Bool) (units : Nat) : signed neg units = 0 ↔ units = 0 := by
  cases neg <;> simp [signed]

/-- IEEE equality with +0.0 tells the two zeros from every other pattern. -/
theorem f64Eq_posZero (b : F64) : f64Eq b 0x0000000000000000 = isZero b := by
  have hzero : classify 0x0000000000000000 = .finite false 0 := by decide
  rw [Bool.eq_iff_iff, isZero_iff, f64Eq, hzero]
  obtain ⟨hnan, hclass⟩ | ⟨hinf, hclass⟩ | ⟨-, hclass⟩ := classify_cases b
  · have hmag : magOf b ≠ 0 := Nat.ne_zero_of_lt ((isNaN_iff b).1 hnan)
    simp [hclass, hmag]
  · have hmag : magOf b ≠ 0 := by simp [(isInf_iff b).1 hinf, infMag]
    simp [hclass, hmag]
  · have hright : signed false 0 = 0 := rfl
    simp [hclass, hright, signed_eq_zero_iff, unitsOf_eq_zero_iff]

theorem zeroTest_of_nonzero {b : F64} (h : isZero b = false) : zeroTest b = none := by
  rw [zeroTest, f64Eq_posZero, h]
  rfl

end Sys2Proof.Machine
end

/-! ## The operands and the result, by their slots (R91) -/

section
namespace Sys2Proof.Machine

/-- The slot just above `below` holds the value that lies on it. -/
theorem State.slot_of_append_cons {s : State} {top below : List F64} {v : F64} (h : s.stack = top ++ v :: below) :
    s.slot below.length = some v := by
  rw [State.slot, h]
  simp

/-- The values in the slots `sp-1` and `sp-2` are the top of the stack and the value below it. -/
theorem stack_of_slots {s : State} {a b : F64} (hsp : 2 ≤ s.sp) (hb : s.slot (s.sp - 1) = some b)
    (ha : s.slot (s.sp - 2) = some a) : ∃ below, s.stack = b :: a :: below := by
  rcases hs : s.stack with _ | ⟨y, _ | ⟨x, below⟩⟩
  · simp [State.sp, hs] at hsp
  · simp [State.sp, hs] at hsp
  · have hy : s.slot (s.sp - 1) = some y := by
      simpa [State.sp, hs] using State.slot_of_append_cons (s := s) (top := []) hs
    have hx : s.slot (s.sp - 2) = some x := by
      simpa [State.sp, hs] using State.slot_of_append_cons (s := s) (top := [y]) hs
    obtain rfl : y = b := Option.some.inj (hy.symm.trans hb)
    obtain rfl : x = a := Option.some.inj (hx.symm.trans ha)
    exact ⟨below, rfl⟩

/-- `t` is `s` after its two topmost values gave way to `v`: `v` in slot `sp-2`, the slots below it as they were. -/
def TopTwoReplaced (v : F64) (s t : State) : Prop :=
  t.sp = s.sp - 1 ∧ t.slot (s.sp - 2) = some v ∧ ∀ k, k < s.sp - 2 → t.slot k = s.slot k

theorem topTwoReplaced_of_stack {s t : State} {a b v : F64} {below : List F64} (hs : s.stack = b :: a :: below)
    (ht : t.stack = v :: below) : TopTwoReplaced v s t := by
  have hsp : s.sp - 2 = below.length := by simp [State.sp, hs]
  rw [TopTwoReplaced, hsp]
  refine ⟨by simp [State.sp, hs, ht], State.slot_of_append_cons (top := []) ht, fun k hk => ?_⟩
  rw [State.slot_of_append (top := [v]) ht hk, State.slot_of_append (top := [b, a]) hs hk]

/-- An instruction of the binary form whose test passes takes slot `sp-2` on the left and slot `sp-1` on the right. -/
theorem exec_topTwoReplaced {i : Instr} {test : F64 → Option Failure} {op : F64 → F64 → F64} {s : State} {a b : F64}
    {below : List F64} (hi : effect i s = binaryForm test op s) (hs : s.stack = b :: a :: below) (ht : test b = none) :
    ∃ t, exec i s = .next t ∧ TopTwoReplaced (op a b) s t := by
  refine ⟨effect i s, exec_eq_effect i s, ?_⟩
  rw [hi, binaryForm_of_pass op hs ht]
  exact topTwoReplaced_of_stack hs rfl

/-- 5.0 - 2.0 is 3.0 (R91). -/
theorem f64Sub_five_two : f64Sub 0x4014000000000000 0x4000000000000000 = 0x4008000000000000 := by decide +kernel

/-- Settles O47: all four are binary forms, and the test of the form refuses a zero divisor alone. -/
theorem operandOrder : Obligations.OperandOrder := by
  refine ⟨fun s a b hsp hb ha => ?_, f64Sub_five_two⟩
  obtain ⟨below, hs⟩ := stack_of_slots hsp hb ha
  simp only [List.forall_mem_cons]
  refine ⟨.inr ?_, .inr ?_, .inr ?_, ?_, List.forall_mem_nil _⟩
  · exact exec_topTwoReplaced (test := noTest) rfl hs rfl
  · exact exec_topTwoReplaced (test := noTest) rfl hs rfl
  · exact exec_topTwoReplaced (test := noTest) rfl hs rfl
  · cases hzero : isZero b with
    | true => exact .inl ⟨trivial, rfl⟩
    | false => exact .inr (exec_topTwoReplaced (test := zeroTest) rfl hs (zeroTest_of_nonzero hzero))

end Sys2Proof.Machine
end

/-! SUPPORT. The proofs of the statements of spec/44_register_transfer: the stores (R100, R102) and the loads (R101, R103). Each
rule is proved once for both registers. -/

/-! ## ST1 and ST2 (R100, R102) -/

section
namespace Sys2Proof.Machine

theorem exec_storeOf_of_cons (r : Reg) {s : State} {v : F64} {below : List F64} (h : s.stack = v :: below) :
    exec (storeOf r) s = .next (((s.setStack below).setReg r v).advance 1) := by
  rw [exec_eq_effect, effect_storeOf, popForm_of_cons _ h]

theorem exec_storeOf_of_empty (r : Reg) {s : State} (h : s.sp = 0) :
    exec (storeOf r) s = .next (s.raise .stackUnderflow) := by
  rw [exec_eq_effect, effect_storeOf, popForm_of_nil _ (List.eq_nil_of_length_eq_zero h)]

/-- Settles O48: both stores are the pop form, whose use of the value is the write of the register. -/
theorem storeRules : Obligations.StoreRules := by
  refine ⟨fun rest => ?_, fun s v below hs => ?_, fun s hempty => ?_⟩
  · exact ⟨decode_of_formZ opcodeForm_st1 rest, decode_of_formZ opcodeForm_st2 rest⟩
  · exact ⟨exec_storeOf_of_cons .r1 hs, exec_storeOf_of_cons .r2 hs⟩
  · exact ⟨exec_storeOf_of_empty .r1 hempty, exec_storeOf_of_empty .r2 hempty⟩

end Sys2Proof.Machine
end

/-! ## LD1 and LD2 (R101, R103) -/

section
namespace Sys2Proof.Machine

theorem effect_loadOf (r : Reg) (s : State) : effect (loadOf r) s = pushForm (s.getReg r) 1 s := by
  cases r <;> rfl

theorem exec_loadOf_of_room (r : Reg) {s : State} (h : s.sp < Config.stackCapacity) :
    exec (loadOf r) s = .next ((s.push (s.getReg r)).advance 1) := by
  rw [exec_eq_effect, effect_loadOf, pushForm_of_room h]

theorem exec_loadOf_of_full (r : Reg) {s : State} (h : Config.stackCapacity ≤ s.sp) :
    exec (loadOf r) s = .next (s.raise .stackOverflow) := by
  rw [exec_eq_effect, effect_loadOf, pushForm_of_full h]

/-- Settles O49: both loads are the push form on what the register holds, and reset writes +0.0 to both registers. -/
theorem loadRules : Obligations.LoadRules := by
  refine ⟨fun rest => ?_, fun s hroom => ?_, fun s hfull => ?_, rfl, rfl⟩
  · exact ⟨decode_of_formZ opcodeForm_ld1 rest, decode_of_formZ opcodeForm_ld2 rest⟩
  · exact ⟨exec_loadOf_of_room .r1 hroom, exec_loadOf_of_room .r2 hroom⟩
  · exact ⟨exec_loadOf_of_full .r1 hfull.ge, exec_loadOf_of_full .r2 hfull.ge⟩

end Sys2Proof.Machine
end

/-! SUPPORT. The proofs of the statements of spec/45_print: what PRINT does (R106), which instructions emit (R107), and that
nothing comes back from the sink (R110). -/

/-! ## PRINT (R106) -/

section
namespace Sys2Proof.Machine

theorem effect_print_of_cons {s : State} {v : F64} {below : List F64} (h : s.stack = v :: below) :
    effect .print s = ((s.setStack below).emit v).advance 1 := popForm_of_cons State.emit h

theorem effect_print_of_nil {s : State} (h : s.stack = []) : effect .print s = s.raise .stackUnderflow :=
  popForm_of_nil State.emit h

/-- Settles O51: PRINT is the pop form, whose use of the value is the emission. -/
theorem printRule : Obligations.PrintRule := by
  refine ⟨decode_of_formZ opcodeForm_print, fun s v below hs => ?_, fun s hempty => ?_⟩
  · rw [exec_eq_effect, effect_print_of_cons hs]
    rfl
  · rw [exec_eq_effect, effect_print_of_nil (List.eq_nil_of_length_eq_zero hempty)]
    rfl

end Sys2Proof.Machine
end

/-! ## The trace exchanged before an instruction (R24, R110) -/

section
namespace Sys2Proof.Machine

/-- `s` with `o` in the place of what has been printed. -/
def State.setOut (s : State) (o : List F64) : State := { s with out := o }

/-- The fetch does not read the trace. -/
theorem fetch_setOut (s : State) (o : List F64) : fetch (s.setOut o) = fetch s := rfl

/-! An exchange of the trace commutes with every update of the state, what `emit` adds coming after it; written outermost. -/

@[simp] theorem State.setOut_setStack (s : State) (o st : List F64) :
    (s.setOut o).setStack st = (s.setStack st).setOut o := rfl
@[simp] theorem State.setOut_push (s : State) (o : List F64) (v : F64) : (s.setOut o).push v = (s.push v).setOut o := rfl
@[simp] theorem State.setOut_advance (s : State) (o : List F64) (n : Offset) :
    (s.setOut o).advance n = (s.advance n).setOut o := rfl
@[simp] theorem State.setOut_raise (s : State) (o : List F64) (f : Failure) :
    (s.setOut o).raise f = (s.raise f).setOut o := rfl
@[simp] theorem State.setOut_emit (s : State) (o : List F64) (v : F64) :
    (s.setOut o).emit v = (s.emit v).setOut (o ++ [v]) := rfl

theorem pushForm_setOut (v : F64) (len : Offset) (s : State) (o : List F64) :
    pushForm v len (s.setOut o) = (pushForm v len s).setOut o := by
  obtain ⟨hroom, he⟩ | ⟨hfull, he⟩ := pushForm_cases v len s
  · simp [he, pushForm_of_room (s := s.setOut o) hroom]
  · simp [he, pushForm_of_full (s := s.setOut o) hfull]

/-- A pop exchanges the trace as its use of the value does. -/
theorem popForm_setOut {use : State → F64 → State} {o : List F64}
    (huse : ∀ u v, use (u.setOut o) v = (use u v).setOut o) (s : State) :
    popForm use (s.setOut o) = (popForm use s).setOut o := by
  obtain ⟨v, rest, hs, he⟩ | ⟨hs, he⟩ := popForm_cases use s
  · simp [he, popForm_of_cons use (s := s.setOut o) hs, huse]
  · simp [he, popForm_of_nil use (s := s.setOut o) hs]

theorem unaryForm_setOut (f : F64 → F64) (s : State) (o : List F64) :
    unaryForm f (s.setOut o) = (unaryForm f s).setOut o := by
  obtain ⟨a, rest, hs, he⟩ | ⟨hs, he⟩ := unaryForm_cases f s
  · simp [he, unaryForm_of_cons f (s := s.setOut o) hs]
  · simp [he, unaryForm_of_nil f (s := s.setOut o) hs]

theorem binaryForm_setOut (test : F64 → Option Failure) (op : F64 → F64 → F64) (s : State) (o : List F64) :
    binaryForm test op (s.setOut o) = (binaryForm test op s).setOut o := by
  obtain ⟨b, a, rest, hs, ht, he⟩ | ⟨b, a, rest, f, hs, ht, he⟩ | ⟨hs, he⟩ := binaryForm_cases test op s
  · simp [he, binaryForm_of_pass op (s := s.setOut o) hs ht]
  · simp [he, binaryForm_of_fail op (s := s.setOut o) hs ht]
  · simp [he, binaryForm_of_short test op (s := s.setOut o) hs]

theorem jumpForm_setOut (rel : F64 → F64 → Bool) (addr : Offset) (s : State) (o : List F64) :
    jumpForm rel addr (s.setOut o) = (jumpForm rel addr s).setOut o := by
  rw [jumpForm_eq, jumpForm_eq]
  rfl

/-- An instruction other than PRINT commutes with an exchange of the trace. -/
theorem effect_setOut_of_ne_print {i : Instr} (hi : i ≠ .print) (s : State) (o : List F64) :
    effect i (s.setOut o) = (effect i s).setOut o := by
  cases i with
  | print => exact absurd rfl hi
  | halt | nop => rfl
  | dconstM1 | dconst0 | dconst1 | dconst2 | dconst _ | ld1 | ld2 => exact pushForm_setOut ..
  | jeq _ | jne _ | jlt _ | jle _ | jgt _ | jge _ => exact jumpForm_setOut ..
  | add | sub | mul => exact binaryForm_setOut noTest _ s o
  | div => exact binaryForm_setOut zeroTest f64Div s o
  | neg => exact unaryForm_setOut ..
  | st1 => exact popForm_setOut (use := fun u v => u.setReg .r1 v) (fun _ _ => rfl) s
  | st2 => exact popForm_setOut (use := fun u v => u.setReg .r2 v) (fun _ _ => rfl) s

end Sys2Proof.Machine
end

/-! ## What an instruction emits (R107) -/

section
namespace Sys2Proof.Machine

/-- The values `i` emits in `s`: the top of the stack, where there is one, by PRINT; nothing by any other instruction. -/
def emitted (i : Instr) (s : State) : List F64 := if i = .print then s.stack.take 1 else []

theorem emitted_of_ne_print {i : Instr} (hi : i ≠ .print) (s : State) : emitted i s = [] := if_neg hi

theorem emitted_print_of_cons {s : State} {v : F64} {below : List F64} (h : s.stack = v :: below) :
    emitted .print s = [v] := by
  simp [emitted, h]

theorem emitted_print_of_nil {s : State} (h : s.stack = []) : emitted .print s = [] := by
  simp [emitted, h]

/-- What has been printed has no influence on an instruction but that the values it emits come after it. -/
theorem effect_setOut (i : Instr) (s : State) (o : List F64) :
    effect i (s.setOut o) = (effect i s).setOut (o ++ emitted i s) := by
  by_cases hi : i = .print
  · subst hi
    cases hs : s.stack with
    | nil => simp [effect_print_of_nil hs, effect_print_of_nil (s := s.setOut o) hs, emitted_print_of_nil hs]
    | cons v below =>
      rw [effect_print_of_cons hs, effect_print_of_cons (s := s.setOut o) hs, emitted_print_of_cons hs]
      simp
  · rw [effect_setOut_of_ne_print hi, emitted_of_ne_print hi, List.append_nil]

/-- An instruction appends to the trace what it emits: the case of `effect_setOut` where the trace is exchanged for itself. -/
theorem effect_out (i : Instr) (s : State) : (effect i s).out = s.out ++ emitted i s :=
  congrArg State.out (effect_setOut i s s.out)

theorem transfers_of_out {s t : State} {vs : List F64} (h : t.out = s.out ++ vs) : transfers s t = vs := by
  simp [transfers, h]

theorem transfers_effect (i : Instr) (s : State) : transfers s (effect i s) = emitted i s :=
  transfers_of_out (effect_out i s)

theorem transfers_raise (s : State) (f : Failure) : transfers s (s.raise f) = [] :=
  transfers_of_out (List.append_nil _).symm

/-- From a Running core, an instruction that fails emits nothing. -/
theorem emitted_of_failed {i : Instr} {s : State} (hrun : s.status = .running)
    (hfailed : (effect i s).status = .haltedFailure) : emitted i s = [] := by
  by_cases hi : i = .print
  · subst hi
    cases hs : s.stack with
    | nil => exact emitted_print_of_nil hs
    | cons v below => simp [effect_print_of_cons hs, hrun] at hfailed
  · exact emitted_of_ne_print hi s

/-- A PRINT that does not fail emits the value of the topmost slot. -/
theorem emitted_print_of_not_failed {s : State} (h : (effect .print s).status ≠ .haltedFailure) :
    ∃ v, s.slot (s.sp - 1) = some v ∧ emitted .print s = [v] := by
  cases hs : s.stack with
  | nil => simp [effect_print_of_nil hs] at h
  | cons v below =>
    have htop : s.slot (s.sp - 1) = some v := by
      simpa [State.sp, hs] using State.slot_of_append_cons (s := s) (top := []) hs
    exact ⟨v, htop, emitted_print_of_cons hs⟩

/-- Settles O53: an instruction appends what it emits, which is nothing unless it is a PRINT that completes. -/
theorem outputFrame : Obligations.OutputFrame := by
  intro i s t hrun h
  obtain rfl := eq_effect_of_exec h
  rw [transfers_effect, effect_out]
  refine ⟨fun hi => ?_, fun hfailed => ?_, fun hi hdone => ?_⟩
  · simp [emitted_of_ne_print hi]
  · simp [emitted_of_failed hrun hfailed]
  · subst hi
    obtain ⟨v, htop, hemit⟩ := emitted_print_of_not_failed hdone
    exact ⟨v, htop, hemit, by rw [hemit]⟩

end Sys2Proof.Machine
end

/-! ## The output is one-way (R110) -/

section
namespace Sys2Proof.Machine

/-- Settles O56: the fetch does not read the trace, a failure leaves it, and an instruction only appends to it. -/
theorem outputIsOneWay : Obligations.OutputIsOneWay := by
  intro s t o h
  change step (s.setOut o) = .next (t.setOut (o ++ transfers s t))
  obtain ⟨hrun, ⟨f, hfetch, rfl⟩ | ⟨i, hfetch, hexec⟩⟩ := step_next_cases h
  · have hstep : step (s.setOut o) = .next ((s.setOut o).raise f) :=
      step_of_fail hrun ((fetch_setOut s o).trans hfetch)
    rw [hstep, transfers_raise, List.append_nil, State.setOut_raise]
  · obtain rfl := eq_effect_of_exec hexec
    have hstep : step (s.setOut o) = exec i (s.setOut o) :=
      step_of_run hrun ((fetch_setOut s o).trans hfetch)
    rw [hstep, exec_eq_effect, effect_setOut, transfers_effect]

end Sys2Proof.Machine
end

/-! SUPPORT. The proof of the statement of spec/60_exceptions on precise failures (R119): a step that fails is `raise` of one
failure and nothing more, and the fetch alone raises InvalidOpcode. -/

/-! ## What a failure records (R119) -/

section
namespace Sys2Proof.Machine

theorem failureCode_ne_none (f : Failure) : failureCode f ≠ .none := by cases f <;> nofun

/-- A failure of the code InvalidOpcode is that failure, of the byte it records. -/
theorem eq_invalidOpcode_of_failureCode {f : Failure} (h : failureCode f = .invalidOpcode) :
    f = .invalidOpcode (failureByte f) := by
  cases f with
  | invalidOpcode op => rfl
  | divisionByZero | truncatedStream | stackOverflow | stackUnderflow => exact nomatch h

theorem failureByte_of_failureCode_ne {f : Failure} (h : failureCode f ≠ .invalidOpcode) : failureByte f = 0 := by
  cases f with
  | invalidOpcode op => exact absurd rfl h
  | divisionByZero | truncatedStream | stackOverflow | stackUnderflow => rfl

end Sys2Proof.Machine
end

/-! ## The failures of an instruction -/

section
namespace Sys2Proof.Machine

section
variable {s : State} (hs : s.status ≠ .haltedFailure)
include hs

theorem pushForm_eq_raise_of_failed {v : F64} {len : Offset} (h : (pushForm v len s).status = .haltedFailure) :
    pushForm v len s = s.raise .stackOverflow := by
  obtain ⟨-, he⟩ | ⟨-, he⟩ := pushForm_cases v len s
  · exact absurd (by simpa [he] using h) hs
  · exact he

/-- A pop whose use of the value keeps the status fails by underflow alone. -/
theorem popForm_eq_raise_of_failed {use : State → F64 → State} (h : (popForm use s).status = .haltedFailure)
    (huse : ∀ u v, (use u v).status = u.status) : popForm use s = s.raise .stackUnderflow := by
  obtain ⟨_, _, -, he⟩ | ⟨-, he⟩ := popForm_cases use s
  · exact absurd (by simpa [he, huse] using h) hs
  · exact he

theorem unaryForm_eq_raise_of_failed {f : F64 → F64} (h : (unaryForm f s).status = .haltedFailure) :
    unaryForm f s = s.raise .stackUnderflow := by
  obtain ⟨_, _, -, he⟩ | ⟨-, he⟩ := unaryForm_cases f s
  · exact absurd (by simpa [he] using h) hs
  · exact he

/-- A binary form fails by underflow or by what its test of the right operand says. -/
theorem binaryForm_eq_raise_of_failed {test : F64 → Option Failure} {op : F64 → F64 → F64}
    (h : (binaryForm test op s).status = .haltedFailure) :
    ∃ f, (f = .stackUnderflow ∨ ∃ b, test b = some f) ∧ binaryForm test op s = s.raise f := by
  obtain ⟨_, _, _, -, -, he⟩ | ⟨b, _, _, f, -, htest, he⟩ | ⟨-, he⟩ := binaryForm_cases test op s
  · exact absurd (by simpa [he] using h) hs
  · exact ⟨f, .inr ⟨b, htest⟩, he⟩
  · exact ⟨.stackUnderflow, .inl rfl, he⟩

end

theorem eq_divisionByZero_of_zeroTest {b : F64} {f : Failure} (h : zeroTest b = some f) : f = .divisionByZero := by
  unfold zeroTest at h
  split at h
  · exact (Option.some.inj h).symm
  · exact nomatch h

/-- From a core that has not failed, an instruction that fails does nothing but raise a failure, which is not
InvalidOpcode (R120). -/
theorem effect_eq_raise_of_failed {i : Instr} {s : State} (hs : s.status ≠ .haltedFailure)
    (h : (effect i s).status = .haltedFailure) :
    ∃ f, failureCode f ≠ .invalidOpcode ∧ effect i s = s.raise f := by
  cases i with
  | halt => exact nomatch h
  | nop => exact absurd h hs
  | dconstM1 | dconst0 | dconst1 | dconst2 | dconst _ | ld1 | ld2 =>
    exact ⟨.stackOverflow, nofun, pushForm_eq_raise_of_failed hs h⟩
  | jeq _ | jne _ | jlt _ | jle _ | jgt _ | jge _ => exact absurd (by simpa [effect, jumpForm_eq] using h) hs
  | add | sub | mul =>
    obtain ⟨f, rfl | ⟨_, htest⟩, he⟩ := binaryForm_eq_raise_of_failed hs h
    · exact ⟨.stackUnderflow, nofun, he⟩
    · exact nomatch htest
  | div =>
    obtain ⟨f, rfl | ⟨_, htest⟩, he⟩ := binaryForm_eq_raise_of_failed hs h
    · exact ⟨.stackUnderflow, nofun, he⟩
    · obtain rfl := eq_divisionByZero_of_zeroTest htest
      exact ⟨.divisionByZero, nofun, he⟩
  | neg => exact ⟨.stackUnderflow, nofun, unaryForm_eq_raise_of_failed hs h⟩
  | print | st1 | st2 => exact ⟨.stackUnderflow, nofun, popForm_eq_raise_of_failed hs h fun _ _ => rfl⟩

end Sys2Proof.Machine
end

/-! ## The failures of the fetch -/

section
namespace Sys2Proof

/-- The byte the decoder refuses is the first of the bytes it is given. -/
theorem head?_of_decode_illegal {bytes : List Byte} {op : Byte} (h : decode bytes = .illegalOpcode op) :
    bytes.head? = some op := by
  cases bytes with
  | nil => exact nomatch h
  | cons op' bytes =>
    cases hf : opcodeForm op' with
    | none =>
      rw [decode_of_noForm hf, DecodeResult.illegalOpcode.injEq] at h
      exact congrArg some h
    | some form =>
      cases form with
      | z i => simp [decode, hf] at h
      | j make | d make =>
        simp only [decode, hf] at h
        split at h <;> exact nomatch h

end Sys2Proof

namespace Sys2Proof.Machine

/-- A fetch that fails with InvalidOpcode records the byte the read port gives at `pc`. -/
theorem imemRead_of_fetch_invalidOpcode {s : State} {op : Byte} (h : fetch s = .fail (.invalidOpcode op)) :
    imemRead s s.pc.toNat = some op := by
  have hdecode : decode (fetchBytes s) = .illegalOpcode op := by
    cases hd : decode (fetchBytes s) with
    | illegalOpcode op' => simpa [fetch, hd] using h
    | instr _ _ | noOpcode | truncatedOperand => simp [fetch, hd] at h
  calc imemRead s s.pc.toNat = (fetchBytes s)[0]? := (fetchBytes_getElem? s 0 (by omega)).symm
    _ = (fetchBytes s).head? := List.head?_eq_getElem?.symm
    _ = some op := head?_of_decode_illegal hdecode

end Sys2Proof.Machine
end

/-! ## A failing step (R119) -/

section
namespace Sys2Proof.Machine

/-- A step that fails is `raise` of one failure; where that is InvalidOpcode, its byte is the one at `pc`. -/
theorem step_eq_raise_of_failed {s t : State} (h : step s = .next t) (ht : t.status = .haltedFailure) :
    ∃ f, t = s.raise f ∧ (failureCode f = .invalidOpcode → imemRead s s.pc.toNat = some (failureByte f)) := by
  obtain ⟨hrun, ⟨f, hfetch, rfl⟩ | ⟨i, -, hexec⟩⟩ := step_next_cases h
  · refine ⟨f, rfl, fun hcode => imemRead_of_fetch_invalidOpcode ?_⟩
    rwa [← eq_invalidOpcode_of_failureCode hcode]
  · obtain rfl := eq_effect_of_exec hexec
    have hs : s.status ≠ .haltedFailure := by simp [hrun]
    obtain ⟨f, hcode, he⟩ := effect_eq_raise_of_failed hs ht
    exact ⟨f, he, fun hinvalid => absurd hinvalid hcode⟩

/-- Settles O17: a failing step is one `raise`, which writes status and the fault record alone. -/
theorem failuresArePrecise : Obligations.FailuresArePrecise := by
  intro s t h ht
  obtain ⟨f, rfl, hbyte⟩ := step_eq_raise_of_failed h ht
  exact ⟨rfl, failureCode_ne_none f, hbyte, failureByte_of_failureCode_ne⟩

end Sys2Proof.Machine
end

/-! SUPPORT. The proof of the statement of spec/70_reset_and_hazards on stopping and resuming a run (R136): the budgets of a run
add up, and a step that leaves the core Running keeps the fault record. -/

/-! ## The fault record (R23) -/

section
namespace Sys2Proof.Machine

/-- The fault record of R23, as one value. -/
def State.faultRecord (s : State) : FaultCode × Offset × Byte := (s.faultCode, s.faultPc, s.faultByte)

theorem State.faultRecord_eq_iff {s t : State} :
    t.faultRecord = s.faultRecord ↔ t.faultCode = s.faultCode ∧ t.faultPc = s.faultPc ∧ t.faultByte = s.faultByte :=
  Prod.ext_iff.trans (and_congr_right fun _ => Prod.ext_iff)

/-- `t` has the fault record of `s`, or is `s` with a failure raised. -/
def RecordKeptOrRaised (s t : State) : Prop := t.faultRecord = s.faultRecord ∨ ∃ f, t = s.raise f

theorem pushForm_recordKeptOrRaised (v : F64) (len : Offset) (s : State) : RecordKeptOrRaised s (pushForm v len s) := by
  obtain ⟨-, he⟩ | ⟨-, he⟩ := pushForm_cases v len s
  · exact .inl (by rw [he]; rfl)
  · exact .inr ⟨_, he⟩

/-- A pop keeps the fault record or fails when its use of the value keeps the record. -/
theorem popForm_recordKeptOrRaised {use : State → F64 → State} (huse : ∀ u v, (use u v).faultRecord = u.faultRecord)
    (s : State) : RecordKeptOrRaised s (popForm use s) := by
  obtain ⟨v, rest, -, he⟩ | ⟨-, he⟩ := popForm_cases use s
  · exact .inl (by rw [he]; exact huse (s.setStack rest) v)
  · exact .inr ⟨_, he⟩

theorem unaryForm_recordKeptOrRaised (f : F64 → F64) (s : State) : RecordKeptOrRaised s (unaryForm f s) := by
  obtain ⟨_, _, -, he⟩ | ⟨-, he⟩ := unaryForm_cases f s
  · exact .inl (by rw [he]; rfl)
  · exact .inr ⟨_, he⟩

theorem binaryForm_recordKeptOrRaised (test : F64 → Option Failure) (op : F64 → F64 → F64) (s : State) :
    RecordKeptOrRaised s (binaryForm test op s) := by
  obtain ⟨_, _, _, -, -, he⟩ | ⟨_, _, _, f, -, -, he⟩ | ⟨-, he⟩ := binaryForm_cases test op s
  · exact .inl (by rw [he]; rfl)
  · exact .inr ⟨f, he⟩
  · exact .inr ⟨_, he⟩

theorem jumpForm_recordKeptOrRaised (rel : F64 → F64 → Bool) (addr : Offset) (s : State) :
    RecordKeptOrRaised s (jumpForm rel addr s) := .inl (by rw [jumpForm_eq]; rfl)

/-- No instruction writes the fault record but by raising a failure. -/
theorem effect_recordKeptOrRaised (i : Instr) (s : State) : RecordKeptOrRaised s (effect i s) := by
  cases i with
  | halt | nop => exact .inl rfl
  | dconstM1 | dconst0 | dconst1 | dconst2 | dconst _ | ld1 | ld2 => exact pushForm_recordKeptOrRaised ..
  | jeq _ | jne _ | jlt _ | jle _ | jgt _ | jge _ => exact jumpForm_recordKeptOrRaised ..
  | add | sub | mul | div => exact binaryForm_recordKeptOrRaised ..
  | neg => exact unaryForm_recordKeptOrRaised ..
  | print => exact popForm_recordKeptOrRaised (use := State.emit) (fun _ _ => rfl) s
  | st1 => exact popForm_recordKeptOrRaised (use := fun u v => u.setReg .r1 v) (fun _ _ => rfl) s
  | st2 => exact popForm_recordKeptOrRaised (use := fun u v => u.setReg .r2 v) (fun _ _ => rfl) s

theorem step_recordKeptOrRaised {s t : State} (h : step s = .next t) : RecordKeptOrRaised s t := by
  obtain ⟨-, ⟨f, -, rfl⟩ | ⟨i, -, hexec⟩⟩ := step_next_cases h
  · exact .inr ⟨f, rfl⟩
  · obtain rfl := eq_effect_of_exec hexec
    exact effect_recordKeptOrRaised i s

/-- A step that leaves the core Running has produced no fault record: what raises a failure halts the core. -/
theorem step_faultRecord_of_running {s t : State} (h : step s = .next t) (ht : t.status = .running) :
    t.faultRecord = s.faultRecord := by
  obtain hkept | ⟨f, rfl⟩ := step_recordKeptOrRaised h
  · exact hkept
  · exact nomatch (State.raise_status s f).symm.trans ht

end Sys2Proof.Machine
end

/-! ## A run under a budget (R133, R136) -/

section
namespace Sys2Proof.Machine

/-- A Running core has a step, and it answers a next state. -/
theorem exists_next_of_running {s : State} (hs : s.status = .running) : ∃ t, step s = .next t := by
  cases hf : fetch s with
  | fail f => exact ⟨_, step_of_fail hs hf⟩
  | run i => exact ⟨effect i s, (step_of_run hs hf).trans (exec_eq_effect i s)⟩

theorem runFor_zero (s : State) : runFor 0 s = s := rfl

/-- With a step left in its budget, a run goes on from the next state, and stays where there is none. -/
theorem runFor_succ (n : Nat) (s : State) :
    runFor (n + 1) s = match step s with | .next t => runFor n t | .fault _ | .refused _ => s := rfl

theorem runFor_succ_of_next {s t : State} (h : step s = .next t) (n : Nat) : runFor (n + 1) s = runFor n t := by
  rw [runFor_succ, h]

theorem runFor_of_halted {s : State} (hs : s.status ≠ .running) (n : Nat) : runFor n s = s := by
  cases n with
  | zero => exact runFor_zero s
  | succ n => rw [runFor_succ, step_of_halted hs]

/-- The budgets of a run add up: to stop after `m` steps and go on for `n` is to run for `m + n`. -/
theorem runFor_add (m n : Nat) (s : State) : runFor (m + n) s = runFor n (runFor m s) := by
  induction m generalizing s with
  | zero => rw [Nat.zero_add, runFor_zero]
  | succ m ih =>
    by_cases hs : s.status = .running
    · obtain ⟨t, h⟩ := exists_next_of_running hs
      calc runFor (m + 1 + n) s = runFor (m + n + 1) s := by rw [Nat.add_right_comm]
        _ = runFor (m + n) t := runFor_succ_of_next h (m + n)
        _ = runFor n (runFor m t) := ih t
        _ = runFor n (runFor (m + 1) s) := by rw [runFor_succ_of_next h]
    · simp only [runFor_of_halted hs]

/-- A run leaves only a Running core Running: a halted one it keeps as it is. -/
theorem running_of_runFor_running {m : Nat} {s : State} (h : (runFor m s).status = .running) : s.status = .running := by
  by_contra hs
  exact hs (by rwa [runFor_of_halted hs] at h)

/-- A run that leaves the core Running has produced no fault record. -/
theorem runFor_faultRecord_of_running {m : Nat} {s : State} (h : (runFor m s).status = .running) :
    (runFor m s).faultRecord = s.faultRecord := by
  induction m generalizing s with
  | zero => rfl
  | succ m ih =>
    obtain ⟨t, hstep⟩ := exists_next_of_running (running_of_runFor_running h)
    rw [runFor_succ_of_next hstep] at h ⊢
    calc (runFor m t).faultRecord = t.faultRecord := ih h
      _ = s.faultRecord := step_faultRecord_of_running hstep (running_of_runFor_running h)

/-- Settles O57: the budgets of a run add up, and a core still Running was so throughout, with no failure raised. -/
theorem stoppingAndResuming : Obligations.StoppingAndResuming := fun m n s =>
  ⟨runFor_add m n s, fun h =>
    ⟨running_of_runFor_running h, State.faultRecord_eq_iff.1 (runFor_faultRecord_of_running h)⟩⟩

end Sys2Proof.Machine
end

/-! SUPPORT. The causes for which an instruction that was fetched can fail (spec/60_exceptions R112, R115, R116). -/

section
namespace Sys2Proof.Machine

/-- `s` shows why `i` raises the failure in it; the other two failures the fetch alone raises. -/
def CauseIn (i : Instr) (s : State) : Failure → Prop
  | .divisionByZero => opcodeOf i ∈ [(0x64 : Byte)] ∧ zeroOnTop s = true
  | .stackOverflow => opcodeOf i ∈ pushingOpcodes ∧ Config.stackCapacity ≤ s.sp
  | .stackUnderflow => (opcodeOf i ∈ binaryOpcodes ∧ s.sp < 2) ∨ (opcodeOf i ∈ poppingOpcodes ∧ s.sp = 0)
  | .invalidOpcode _ => False
  | .truncatedStream => False

theorem zeroOnTop_of_stack {s : State} {b a : F64} {below : List F64} (h : s.stack = b :: a :: below) :
    zeroOnTop s = isZero b := by
  delta zeroOnTop
  rw [h]

theorem sp_eq_zero_of_nil {s : State} (h : s.stack = []) : s.sp = 0 := by rw [State.sp_eq_length, h, List.length_nil]

/-- The test of DIV refuses a zero alone, and as DivisionByZero. -/
theorem zeroTest_eq_some {b : F64} {f : Failure} (h : zeroTest b = some f) : f = .divisionByZero ∧ isZero b = true := by
  refine ⟨eq_divisionByZero_of_zeroTest h, ?_⟩
  by_contra hzero
  exact nomatch (zeroTest_of_nonzero (by simpa using hzero)).symm.trans h

section
variable {s : State} (hs : s.status ≠ .haltedFailure)
include hs

theorem full_of_pushForm_failed {v : F64} {len : Offset} (h : (pushForm v len s).status = .haltedFailure) :
    Config.stackCapacity ≤ s.sp := by
  obtain ⟨-, he⟩ | ⟨hfull, -⟩ := pushForm_cases v len s
  · exact absurd (by simpa [he] using h) hs
  · exact hfull

theorem empty_of_popForm_failed {use : State → F64 → State} (h : (popForm use s).status = .haltedFailure)
    (huse : ∀ u v, (use u v).status = u.status) : s.stack = [] := by
  obtain ⟨_, _, -, he⟩ | ⟨hempty, -⟩ := popForm_cases use s
  · exact absurd (by simpa [he, huse] using h) hs
  · exact hempty

theorem empty_of_unaryForm_failed {f : F64 → F64} (h : (unaryForm f s).status = .haltedFailure) : s.stack = [] := by
  obtain ⟨_, _, -, he⟩ | ⟨hempty, -⟩ := unaryForm_cases f s
  · exact absurd (by simpa [he] using h) hs
  · exact hempty

/-- A binary form that fails has fewer than two values, or raises what its test says of the top. -/
theorem binaryForm_failed_cases {test : F64 → Option Failure} {op : F64 → F64 → F64}
    (h : (binaryForm test op s).status = .haltedFailure) :
    (s.sp < 2 ∧ binaryForm test op s = s.raise .stackUnderflow) ∨
    ∃ b a below f, s.stack = b :: a :: below ∧ test b = some f ∧ binaryForm test op s = s.raise f := by
  obtain ⟨_, _, _, -, -, he⟩ | hfail | hshort := binaryForm_cases test op s
  · exact absurd (by simpa [he] using h) hs
  · exact .inr hfail
  · exact .inl hshort

/-- From a core that has not failed, an instruction that fails raises a failure whose cause the core shows. -/
theorem effect_failed_cause {i : Instr} (h : (effect i s).status = .haltedFailure) :
    ∃ f, effect i s = s.raise f ∧ CauseIn i s f := by
  cases i with
  | halt => exact nomatch h
  | nop => exact absurd h hs
  | dconstM1 | dconst0 | dconst1 | dconst2 | dconst _ | ld1 | ld2 =>
    have hfull := full_of_pushForm_failed hs h
    exact ⟨.stackOverflow, pushForm_of_full hfull, List.mem_of_elem_eq_true rfl, hfull⟩
  | jeq _ | jne _ | jlt _ | jle _ | jgt _ | jge _ => exact absurd (by simpa [effect, jumpForm_eq] using h) hs
  | add | sub | mul =>
    obtain ⟨hshort, he⟩ | ⟨_, _, _, _, -, htest, -⟩ := binaryForm_failed_cases hs h
    · exact ⟨.stackUnderflow, he, .inl ⟨by decide, hshort⟩⟩
    · exact nomatch htest
  | div =>
    obtain ⟨hshort, he⟩ | ⟨b, a, below, f, hstack, htest, he⟩ := binaryForm_failed_cases hs h
    · exact ⟨.stackUnderflow, he, .inl ⟨by decide, hshort⟩⟩
    · obtain ⟨rfl, hzero⟩ := zeroTest_eq_some htest
      exact ⟨.divisionByZero, he, by decide, (zeroOnTop_of_stack hstack).trans hzero⟩
  | neg =>
    have hempty := empty_of_unaryForm_failed hs h
    exact ⟨.stackUnderflow, unaryForm_of_nil _ hempty, .inr ⟨by decide, sp_eq_zero_of_nil hempty⟩⟩
  | print | st1 | st2 =>
    have hempty := empty_of_popForm_failed hs h fun _ _ => rfl
    exact ⟨.stackUnderflow, popForm_eq_raise_of_failed hs h fun _ _ => rfl, .inr ⟨by decide, sp_eq_zero_of_nil hempty⟩⟩

end

end Sys2Proof.Machine
end

/-! SUPPORT. The proofs of the statements of spec/30_encoding on the round trip of decoder and encoder (R49 to R54). -/

/-! ## The operand bytes, by the form found under the opcode byte -/

section
namespace Sys2Proof

/-- Under an opcode of format D the decoder takes the next eight bytes as the operand (R50). -/
theorem decode_of_formD {op : Byte} {make : F64 → Instr} (h : opcodeForm op = some (.d make))
    (b0 b1 b2 b3 b4 b5 b6 b7 : Byte) (rest : List Byte) :
    decode (op :: b0 :: b1 :: b2 :: b3 :: b4 :: b5 :: b6 :: b7 :: rest) =
      .instr (make (f64OfWire Config.f64WireOrder b0 b1 b2 b3 b4 b5 b6 b7)) rest := by
  simp only [decode, h]

/-- The encoder writes the operands of the form's instructions in wire order, as many bytes as the form reads. -/
def Form.WritesOperand : Form → Prop
  | .z i => operandBytes i = []
  | .j make => ∀ addr, operandBytes (make addr) = u32ToWire Config.u32WireOrder addr
  | .d make => ∀ imm, operandBytes (make imm) = f64ToWire Config.f64WireOrder imm

/-- Row by row, the encoder writes the operand that the form of the row reads (R58). -/
theorem writesOperand_of_row : ∀ r ∈ opcodeTable, r.form.WritesOperand := by
  simp [opcodeTable, Form.WritesOperand, operandBytes]

theorem writesOperand_of_form {op : Byte} {f : Form} (h : opcodeForm op = some f) : f.WritesOperand :=
  writesOperand_of_row _ (opcodeForm_mem h)

end Sys2Proof
end

/-! ## Decoding what was encoded -/

section
namespace Sys2Proof

/-- A jump's operand, split into its wire bytes, is read back whole (R36, R53). -/
theorem decode_u32ToWire {op : Byte} {make : Offset → Instr} (h : opcodeForm op = some (.j make)) (addr : Offset)
    (rest : List Byte) : decode (op :: u32ToWire Config.u32WireOrder addr ++ rest) = .instr (make addr) rest :=
  (Machine.decode_of_formJ h ..).trans (congrArg (fun a => DecodeResult.instr (make a) rest) (u32OfWire_split addr))

/-- A constant's operand, split into its wire bytes, is read back whole (R37, R54). -/
theorem decode_f64ToWire {op : Byte} {make : F64 → Instr} (h : opcodeForm op = some (.d make)) (imm : F64)
    (rest : List Byte) : decode (op :: f64ToWire Config.f64WireOrder imm ++ rest) = .instr (make imm) rest :=
  (decode_of_formD h ..).trans (congrArg (fun v => DecodeResult.instr (make v) rest) (f64OfWire_split imm))

/-- Decoding the encoding of an instruction gives it back, with the bytes that follow. -/
theorem decode_encode (i : Instr) (rest : List Byte) : decode (encode i ++ rest) = .instr i rest := by
  cases i with
  | dconst imm => exact decode_f64ToWire opcodeForm_dconst imm rest
  | jeq addr => exact decode_u32ToWire opcodeForm_jeq addr rest
  | jne addr => exact decode_u32ToWire opcodeForm_jne addr rest
  | jlt addr => exact decode_u32ToWire opcodeForm_jlt addr rest
  | jle addr => exact decode_u32ToWire opcodeForm_jle addr rest
  | jgt addr => exact decode_u32ToWire opcodeForm_jgt addr rest
  | jge addr => exact decode_u32ToWire opcodeForm_jge addr rest
  | halt | dconstM1 | dconst0 | dconst1 | dconst2 | add | sub | mul | div | neg | nop | print | st1 | ld1 | st2 | ld2 =>
    exact decode_of_formZ rfl rest

/-- Settles O6: an operand split into wire bytes is assembled again without loss, and the opcode finds its own form. -/
theorem decodeOfEncode : Obligations.DecodeOfEncode := fun i rest _ => decode_encode i rest

end Sys2Proof
end

/-! ## Encoding what was decoded -/

section
namespace Sys2Proof

/-- What the decoder accepts is the encoding of the instruction it answers, followed by the bytes it answers. -/
theorem eq_encode_of_decode {bytes rest : List Byte} {i : Instr} (h : decode bytes = .instr i rest) :
    bytes = encode i ++ rest := by
  cases bytes with
  | nil => exact nomatch h
  | cons op bytes =>
    obtain ⟨f, hf, hi, -⟩ := form_of_decode h
    have hop : opcodeOf i = op := opcodeOf_of_makes hf hi
    have hwrites := writesOperand_of_form hf
    suffices hbytes : bytes = operandBytes i ++ rest by rw [encode, hop, List.cons_append, ← hbytes]
    cases f with
    | z i' =>
      simp only [decode, hf, DecodeResult.instr.injEq] at h
      obtain ⟨rfl, rfl⟩ := h
      rw [show operandBytes i' = [] from hwrites, List.nil_append]
    | j make =>
      simp only [decode, hf] at h
      split at h
      · obtain ⟨rfl, rfl⟩ := DecodeResult.instr.inj h
        rw [hwrites, Config.u32WireOrder, u32ToWire_assembled]
        rfl
      · exact nomatch h
    | d make =>
      simp only [decode, hf] at h
      split at h
      · obtain ⟨rfl, rfl⟩ := DecodeResult.instr.inj h
        rw [hwrites, Config.f64WireOrder, f64ToWire_assembled]
        rfl
      · exact nomatch h

/-- Settles O7: the form of the opcode byte reads the operand bytes that the encoder writes. -/
theorem encodeOfDecode : Obligations.EncodeOfDecode := fun _ _ _ h => eq_encode_of_decode h

/-- Settles O11: the operand is assembled big-endian, and DCONST is of format D. -/
theorem doubleOperandBigEndian : Obligations.DoubleOperandBigEndian := fun b0 b1 b2 b3 b4 b5 b6 b7 _ =>
  ⟨f64OfWire Config.f64WireOrder b0 b1 b2 b3 b4 b5 b6 b7, f64OfWire_toNat b0 b1 b2 b3 b4 b5 b6 b7,
    decode_of_formD opcodeForm_dconst ..⟩

/-- Settles O8: each word is the encoding of its instruction, except the last, whose byte is illegal. -/
theorem specWordsDecode : Obligations.SpecWordsDecode := by
  refine ⟨decode_encode .halt [], decode_encode .nop [0x00], decode_encode .dconstM1 [],
    decode_encode (.dconst 0x4059000000000000) [], decode_encode (.jgt 6) [], decode_encode (.jeq 66051) [],
    decode_encode .sub [], decode_encode .neg [], decode_encode .st1 [0xF5], decode_encode .ld2 [],
    decode_encode .print [], Machine.decode_of_illegal (by decide) []⟩

end Sys2Proof
end

/-! SUPPORT. The proofs of the statements of spec/30_encoding on the step (R57, R60) and on the stream no instruction writes
(R35, R40). -/

/-! ## The decoder on bytes that are too few, and on bytes that are enough -/

section
namespace Sys2Proof

/-- Where fewer bytes follow the opcode than its form reads, the decoder says so: test (5) of R57. -/
theorem decode_of_short {op : Byte} {f : Form} {bytes : List Byte} (hf : opcodeForm op = some f)
    (h : bytes.length < formWidth f) : decode (op :: bytes) = .truncatedOperand := by
  cases f with
  | z i => exact absurd h (Nat.not_lt_zero _)
  | j make =>
    simp only [decode, hf]
    split
    · simp only [formWidth, List.length_cons] at h
      omega
    · rfl
  | d make =>
    simp only [decode, hf]
    split
    · simp only [formWidth, List.length_cons] at h
      omega
    · rfl

/-- Where as many bytes follow the opcode as its form reads, the decoder gives an instruction. -/
theorem exists_decode_of_enough {op : Byte} {f : Form} {bytes : List Byte} (hf : opcodeForm op = some f)
    (h : formWidth f ≤ bytes.length) : ∃ i rest, decode (op :: bytes) = .instr i rest := by
  cases f with
  | z i => exact ⟨i, bytes, decode_of_formZ hf bytes⟩
  | j make =>
    match bytes, h with
    | b0 :: b1 :: b2 :: b3 :: rest, _ => exact ⟨_, rest, Machine.decode_of_formJ hf b0 b1 b2 b3 rest⟩
  | d make =>
    match bytes, h with
    | b0 :: b1 :: b2 :: b3 :: b4 :: b5 :: b6 :: b7 :: rest, _ =>
      exact ⟨_, rest, decode_of_formD hf b0 b1 b2 b3 b4 b5 b6 b7 rest⟩

theorem instrLength_pos (i : Instr) : 0 < instrLength i := by
  have := instrLength_cases i
  omega

theorem instrLength_le_nine (i : Instr) : instrLength i ≤ 9 := by
  have := instrLength_cases i
  omega

end Sys2Proof
end

/-! ## The instruction that stands at `pc`, and the fetch (R50, R57) -/

section
namespace Sys2Proof.Machine

variable {s : State} {i : Instr}

theorem imemRead_of_lt {a : Nat} (h : a < s.streamLen.toNat) : imemRead s a = some (Memory.get s.stream a) := if_pos h

theorem lt_of_imemRead {a : Nat} {b : Byte} (h : imemRead s a = some b) : a < s.streamLen.toNat := by
  by_contra hge
  simp [imemRead, hge] at h

/-- The opcode byte of the instruction at `pc`. -/
theorem InstrAt.opcode (h : InstrAt s i) : imemRead s s.pc.toNat = some (opcodeOf i) := h 0 (instrLength_pos i)

/-- An instruction that stands in the stream ends in it. -/
theorem InstrAt.fits (h : InstrAt s i) : s.pc.toNat + instrLength i ≤ s.streamLen.toNat := by
  have hpos := instrLength_pos i
  have hlast : instrLength i - 1 < (encode i).length := by
    rw [encode_length]
    omega
  have := lt_of_imemRead ((h (instrLength i - 1) (by omega)).trans (List.getElem?_eq_getElem hlast))
  omega

theorem fetch_of_decode {rest : List Byte} (h : decode (fetchBytes s) = .instr i rest) : fetch s = .run i := by
  simp only [fetch, h]

theorem exists_decode_of_fetch (h : fetch s = .run i) : ∃ rest, decode (fetchBytes s) = .instr i rest := by
  cases hd : decode (fetchBytes s) with
  | instr i' rest =>
    obtain rfl : i' = i := by simpa [fetch, hd] using h
    exact ⟨rest, rfl⟩
  | noOpcode | illegalOpcode _ | truncatedOperand => simp [fetch, hd] at h

/-- The fetch gives an instruction exactly where it stands at `pc`. -/
theorem fetch_eq_run_iff : fetch s = .run i ↔ InstrAt s i := by
  constructor
  · intro h k hk
    obtain ⟨rest, hdecode⟩ := exists_decode_of_fetch h
    have hlen : k < (encode i).length := by rwa [encode_length]
    have hnine := instrLength_le_nine i
    rw [← fetchBytes_getElem? s k (by omega), eq_encode_of_decode hdecode, List.getElem?_append_left hlen]
  · intro h
    have htake : (fetchBytes s).take (encode i).length = encode i := List.ext_getElem? fun k => by
      rw [List.getElem?_take]
      by_cases hk : k < (encode i).length
      · have hlen : k < instrLength i := by rwa [encode_length] at hk
        have hnine := instrLength_le_nine i
        rw [if_pos hk, fetchBytes_getElem? s k (by omega), h k hlen]
      · rw [if_neg hk, List.getElem?_eq_none (Nat.le_of_not_lt hk)]
    refine fetch_of_decode (rest := (fetchBytes s).drop (encode i).length) ?_
    rw [← List.take_append_drop (encode i).length (fetchBytes s), htake, decode_encode, List.drop_left]

theorem step_of_instrAt (hs : s.status = .running) (h : InstrAt s i) : step s = exec i s :=
  step_of_run hs (fetch_eq_run_iff.2 h)

/-- What a step can do, by the instruction that stands at `pc`: `step_next_cases` with the fetch read off the stream. -/
theorem step_instrAt_cases {t : State} (h : step s = .next t) :
    s.status = .running ∧ ((∃ f, fetch s = .fail f ∧ t = s.raise f) ∨ ∃ i, InstrAt s i ∧ t = effect i s) := by
  obtain ⟨hrun, hfail | ⟨i, hfetch, hexec⟩⟩ := step_next_cases h
  · exact ⟨hrun, .inl hfail⟩
  · exact ⟨hrun, .inr ⟨i, fetch_eq_run_iff.1 hfetch, eq_effect_of_exec hexec⟩⟩

/-- The bytes of the fetch behind the opcode byte are those left in the stream, up to eight. -/
theorem fetchBytes_tail_length {op : Byte} {bytes : List Byte} (h : fetchBytes s = op :: bytes) :
    bytes.length = min 9 (s.streamLen.toNat - s.pc.toNat) - 1 := by
  rw [← fetchBytes_length, h]
  rfl

theorem formWidth_le_eight (f : Form) : formWidth f ≤ 8 := by cases f <;> simp [formWidth]

/-- Test (5) of R57: an operand that runs past the end of the stream. -/
theorem fetch_of_truncated {op : Byte} {f : Form} (hread : imemRead s s.pc.toNat = some op) (hf : opcodeForm op = some f)
    (h : s.streamLen.toNat < s.pc.toNat + 1 + formWidth f) : fetch s = .fail .truncatedStream := by
  obtain ⟨bytes, hbytes⟩ := fetchBytes_eq_cons hread
  have hlen := fetchBytes_tail_length hbytes
  have hlt := lt_of_imemRead hread
  simp only [fetch, hbytes, decode_of_short hf (bytes := bytes) (by omega)]

/-- The tests of R57 passed: an instruction of the form stands at `pc`. -/
theorem exists_instrAt {op : Byte} {f : Form} (hread : imemRead s s.pc.toNat = some op) (hf : opcodeForm op = some f)
    (h : s.pc.toNat + 1 + formWidth f ≤ s.streamLen.toNat) : ∃ i, InstrAt s i ∧ opcodeOf i = op := by
  obtain ⟨bytes, hbytes⟩ := fetchBytes_eq_cons hread
  have hlen := fetchBytes_tail_length hbytes
  have hwidth := formWidth_le_eight f
  obtain ⟨i, rest, hdecode⟩ := exists_decode_of_enough hf (bytes := bytes) (by omega)
  have hat : InstrAt s i := fetch_eq_run_iff.1 (fetch_of_decode (hbytes ▸ hdecode))
  exact ⟨i, hat, Option.some.inj (hat.opcode.symm.trans hread)⟩

/-- Why a fetch fails (R57): there is no opcode byte, or it has no form, or its operand is not all there. -/
theorem fetch_fail_cases {f : Failure} (h : fetch s = .fail f) :
    (f = .truncatedStream ∧ s.streamLen.toNat ≤ s.pc.toNat) ∨
    (∃ op, f = .invalidOpcode op ∧ imemRead s s.pc.toNat = some op ∧ opcodeForm op = none) ∨
    ∃ op form, f = .truncatedStream ∧ imemRead s s.pc.toNat = some op ∧ opcodeForm op = some form ∧
      s.streamLen.toNat < s.pc.toNat + 1 + formWidth form := by
  rcases Nat.lt_or_ge s.pc.toNat s.streamLen.toNat with hlt | hend
  · have hread := imemRead_of_lt hlt
    cases hf : opcodeForm (Memory.get s.stream s.pc.toNat) with
    | none =>
      refine .inr (.inl ⟨_, ?_, hread, hf⟩)
      exact (Fetched.fail.inj ((fetch_of_noForm hread hf).symm.trans h)).symm
    | some form =>
      rcases Nat.lt_or_ge s.streamLen.toNat (s.pc.toNat + 1 + formWidth form) with hshort | hall
      · refine .inr (.inr ⟨_, form, ?_, hread, hf, hshort⟩)
        exact (Fetched.fail.inj ((fetch_of_truncated hread hf hshort).symm.trans h)).symm
      · obtain ⟨i, hat, -⟩ := exists_instrAt hread hf hall
        exact nomatch (fetch_eq_run_iff.2 hat).symm.trans h
  · exact .inl ⟨(Fetched.fail.inj ((fetch_of_pastEnd hend).symm.trans h)).symm, hend⟩

end Sys2Proof.Machine
end

/-! ## The step (R57, R60) -/

section
namespace Sys2Proof.Machine

/-- Settles O13: the fetch of a Running core gives what the decoder answers. -/
theorem stepRunsTheDecoded : Obligations.StepRunsTheDecoded := fun _ _ _ hrun hdecode =>
  step_of_run hrun (fetch_of_decode hdecode)

theorem exists_form_of_operandWidth {op : Byte} {w : Nat} (h : operandWidth op = some w) :
    ∃ f, opcodeForm op = some f ∧ formWidth f = w := by
  simpa [operandWidth] using h

theorem noForm_of_operandWidth {op : Byte} (h : operandWidth op = none) : opcodeForm op = none := by
  simpa [operandWidth] using h

/-- Settles O14: each test of the fetch decides on the stream, and past them all an instruction stands at `pc`. -/
theorem stepMakesTheTests : Obligations.StepMakesTheTests := by
  intro s hrun
  refine ⟨fun hend => step_of_fail hrun (fetch_of_pastEnd hend), fun op _ hread => ⟨fun hnone => ?_, fun w hw => ?_⟩⟩
  · exact step_of_fail hrun (fetch_of_noForm hread (noForm_of_operandWidth hnone))
  · obtain ⟨f, hf, rfl⟩ := exists_form_of_operandWidth hw
    refine ⟨fun hshort => step_of_fail hrun (fetch_of_truncated hread hf hshort), fun hall => ?_⟩
    obtain ⟨i, hat, rfl⟩ := exists_instrAt hread hf hall
    have hlen : formWidth f = instrLength i - 1 := Option.some.inj (hw.symm.trans (operandWidth_opcodeOf i))
    have := instrLength_pos i
    exact ⟨i, hat, rfl, by omega, step_of_instrAt hrun hat⟩

/-- Settles O15: the fetch raises a failure or gives an instruction, which completes or raises one. -/
theorem stepIsTotal : Obligations.StepIsTotal := by
  intro s hrun
  obtain ⟨t, hstep⟩ := exists_next_of_running hrun
  refine ⟨t, hstep, ?_⟩
  by_cases hfailed : t.status = .haltedFailure
  · obtain ⟨f, he, -⟩ := step_eq_raise_of_failed hstep hfailed
    exact .inr ⟨f, he⟩
  · obtain ⟨-, ⟨f, -, rfl⟩ | ⟨i, hat, rfl⟩⟩ := step_instrAt_cases hstep
    · exact .inr ⟨f, rfl⟩
    · exact .inl ⟨hfailed, i, hat, exec_eq_effect i s⟩

/-- Settles O16: the step refuses a halted core, and a run stays where there is no step. -/
theorem haltedCoreIsFrozen : Obligations.HaltedCoreIsFrozen := fun _ hs => ⟨step_of_halted hs, runFor_of_halted hs⟩

/-- Settles O5: no instruction writes the stream or its length. -/
theorem execStoresNothing : Obligations.ExecStoresNothing := by
  intro i s t h
  obtain rfl := eq_effect_of_exec h
  obtain ⟨hstream, hlen⟩ := effect_sameStream i s
  exact ⟨hlen, fun a => by rw [hstream]⟩

end Sys2Proof.Machine
end

/-! SUPPORT. The proofs of the statements of spec/10_state on status (R22) and pc (R16 to R18), and of spec/42_jumps on the
target of a jump (R83). -/

/-! ## The status (R22) -/

section
namespace Sys2Proof.Machine

/-- A step leads to HaltedSuccess exactly where a HALT byte stands at `pc`. -/
theorem step_haltedSuccess_iff {s t : State} (h : step s = .next t) :
    t.status = .haltedSuccess ↔ imemRead s s.pc.toNat = some (opcodeOf .halt) := by
  constructor
  · intro ht
    obtain ⟨hrun, ⟨f, -, rfl⟩ | ⟨i, hat, rfl⟩⟩ := step_instrAt_cases h
    · exact nomatch (State.raise_status s f).symm.trans ht
    · obtain rfl := eq_halt_of_effect_haltedSuccess (by simp [hrun]) ht
      exact hat.opcode
  · intro hread
    have hat : InstrAt s .halt := fun k hk => by
      obtain rfl : k = 0 := Nat.lt_one_iff.1 hk
      exact hread
    obtain ⟨hrun, -⟩ := step_instrAt_cases h
    obtain rfl := eq_effect_of_exec ((step_of_instrAt hrun hat).symm.trans h)
    rfl

/-- Settles O18: HALT alone succeeds, and a step that fails is one `raise`. -/
theorem statusTransitions : Obligations.StatusTransitions := by
  refine ⟨⟨rfl, rfl, rfl⟩, fun s t h => ⟨(step_instrAt_cases h).1, step_haltedSuccess_iff h, fun ht => ?_, ?_⟩⟩
  · obtain ⟨f, he, -⟩ := step_eq_raise_of_failed h ht
    exact ⟨f, he⟩
  · rintro ⟨f, rfl⟩
    exact State.raise_status s f

/-- Settles O55: an instruction that fails is a `raise`; one that does not keeps the fault record, and the status but for
HALT. In a core that has failed already the two cannot be told apart by the status, which neither changes. -/
theorem statusFrame : Obligations.StatusFrame := by
  intro i s t h
  obtain rfl := eq_effect_of_exec h
  obtain hrecord | hraise := effect_recordKeptOrRaised i s
  · have hkept := State.faultRecord_eq_iff.1 hrecord
    by_cases hfailed : s.status ≠ .haltedFailure ∧ (effect i s).status = .haltedFailure
    · obtain ⟨f, -, he⟩ := effect_eq_raise_of_failed hfailed.1 hfailed.2
      exact .inr ⟨f, he⟩
    · refine .inl ⟨hkept.1, hkept.2.1, hkept.2.2, fun hi => ?_⟩
      obtain hstatus | hstatus := effect_statusKeptOrFailed hi s
      · exact hstatus
      · rw [hstatus, not_not.1 fun hs => hfailed ⟨hs, hstatus⟩]
  · exact .inr hraise

end Sys2Proof.Machine
end

/-! ## The pc (R16 to R18) -/

section
namespace Sys2Proof.Machine

theorem jumpForm_of_taken {rel : F64 → F64 → Bool} {addr target : Offset} {s : State}
    (h : (if rel s.r1 s.r2 then some addr else none) = some target) : jumpForm rel addr s = s.setPc target := by
  obtain ⟨hrel, he⟩ | ⟨hrel, -⟩ := jumpForm_cases rel addr s
  · obtain rfl : addr = target := by simpa [hrel] using h
    exact he
  · simp [hrel] at h

theorem jumpForm_of_notTaken {rel : F64 → F64 → Bool} {addr : Offset} {s : State}
    (h : (if rel s.r1 s.r2 then some addr else none) = none) : jumpForm rel addr s = s.advance 5 := by
  obtain ⟨hrel, -⟩ | ⟨-, he⟩ := jumpForm_cases rel addr s
  · simp [hrel] at h
  · exact he

/-- A taken jump writes `pc` and nothing else. -/
theorem effect_of_jumpTaken {i : Instr} {s : State} {target : Offset} (h : jumpTaken i s = some target) :
    effect i s = s.setPc target := by
  cases i with
  | jeq _ | jne _ | jlt _ | jle _ | jgt _ | jge _ => exact jumpForm_of_taken h
  | _ => exact nomatch h

section
variable {s : State}

theorem pushForm_pc {v : F64} {len : Offset} (h : (pushForm v len s).status ≠ .haltedFailure) :
    (pushForm v len s).pc = s.pc + len := by
  obtain ⟨-, he⟩ | ⟨-, he⟩ := pushForm_cases v len s
  · rw [he, State.advance_pc, State.push_pc]
  · exact absurd (by rw [he, State.raise_status]) h

/-- A pop whose use of the value keeps `pc` passes one byte. -/
theorem popForm_pc {use : State → F64 → State} (huse : ∀ u v, (use u v).pc = u.pc)
    (h : (popForm use s).status ≠ .haltedFailure) : (popForm use s).pc = s.pc + 1 := by
  obtain ⟨v, rest, -, he⟩ | ⟨-, he⟩ := popForm_cases use s
  · rw [he, State.advance_pc, huse, State.setStack_pc]
  · exact absurd (by rw [he, State.raise_status]) h

theorem unaryForm_pc {f : F64 → F64} (h : (unaryForm f s).status ≠ .haltedFailure) :
    (unaryForm f s).pc = s.pc + 1 := by
  obtain ⟨_, _, -, he⟩ | ⟨-, he⟩ := unaryForm_cases f s
  · rw [he, State.advance_pc, State.setStack_pc]
  · exact absurd (by rw [he, State.raise_status]) h

theorem binaryForm_pc {test : F64 → Option Failure} {op : F64 → F64 → F64}
    (h : (binaryForm test op s).status ≠ .haltedFailure) : (binaryForm test op s).pc = s.pc + 1 := by
  obtain ⟨_, _, _, -, -, he⟩ | ⟨_, _, _, _, -, -, he⟩ | ⟨-, he⟩ := binaryForm_cases test op s
  · rw [he, State.advance_pc, State.setStack_pc]
  · exact absurd (by rw [he, State.raise_status]) h
  · exact absurd (by rw [he, State.raise_status]) h

/-- An instruction that neither jumps nor fails passes its own bytes (R17). -/
theorem effect_pc {i : Instr} (hjump : jumpTaken i s = none) (h : (effect i s).status ≠ .haltedFailure) :
    (effect i s).pc = s.pc + BitVec.ofNat Config.pcWidth (instrLength i) := by
  cases i with
  | halt | nop => rfl
  | dconstM1 | dconst0 | dconst1 | dconst2 | dconst _ | ld1 | ld2 => exact pushForm_pc h
  | jeq _ | jne _ | jlt _ | jle _ | jgt _ | jge _ => exact congrArg State.pc (jumpForm_of_notTaken hjump)
  | add | sub | mul | div => exact binaryForm_pc h
  | neg => exact unaryForm_pc h
  | print | st1 | st2 => exact popForm_pc (fun _ _ => rfl) h

/-- The sum does not wrap where the instruction ends in the stream (R18). -/
theorem effect_pc_toNat {i : Instr} (hat : InstrAt s i) (hjump : jumpTaken i s = none)
    (h : (effect i s).status ≠ .haltedFailure) : (effect i s).pc.toNat = s.pc.toNat + instrLength i := by
  have hfits := hat.fits
  have hlen := Offset.toNat_lt s.streamLen
  rw [effect_pc hjump h, Offset.toNat_add, Offset.toNat_ofNat, Nat.mod_eq_of_lt (a := instrLength i) (by omega),
    Nat.mod_eq_of_lt (by omega)]

end

/-- Settles O19: a failure keeps `pc`, a taken jump writes its target, and all else passes its own bytes. -/
theorem pcAfterAStep : Obligations.PcAfterAStep := by
  intro s t h
  refine ⟨fun hfailed => ?_, fun hdone => ?_⟩
  · obtain ⟨f, rfl, -⟩ := step_eq_raise_of_failed h hfailed
    exact State.raise_pc s f
  · obtain ⟨-, ⟨f, -, rfl⟩ | ⟨i, hat, rfl⟩⟩ := step_instrAt_cases h
    · exact absurd (State.raise_status s f) hdone
    · exact ⟨i, hat, fun target htaken => congrArg State.pc (effect_of_jumpTaken htaken),
        fun hjump => effect_pc_toNat hat hjump hdone⟩

/-- Settles O20: a failure keeps `pc`, and an instruction that stands in the stream ends in it. -/
theorem pcStaysInTheStream : Obligations.PcStaysInTheStream := by
  intro s t hjump h hpc
  obtain ⟨-, hlen⟩ := step_sameStream h
  rw [hlen]
  by_cases hfailed : t.status = .haltedFailure
  · obtain ⟨f, rfl, -⟩ := step_eq_raise_of_failed h hfailed
    exact hpc
  · obtain ⟨i, hat, -, hnext⟩ := (pcAfterAStep s t h).2 hfailed
    rw [hnext (hjump i hat)]
    exact hat.fits

/-- Settles O34: a taken jump writes the target unseen, and the fetch of the next step finds it past the end. -/
theorem targetIsNotChecked : Obligations.TargetIsNotChecked := by
  intro s t i addr hrun htaken
  have hexec : exec i s = .next (s.setPc addr) := by rw [exec_eq_effect, effect_of_jumpTaken htaken]
  refine ⟨hexec, fun h hend => ?_⟩
  obtain rfl : s.setPc addr = t := Host.Outcome.next.inj (hexec.symm.trans h)
  exact ⟨step_of_fail (s := s.setPc addr) hrun (fetch_of_pastEnd hend), rfl⟩

end Sys2Proof.Machine
end

/-! SUPPORT. The proofs of the statements of spec/60_exceptions on what the fault record says (R111 to R116), and of the
invariant of the machine: at reset, at every step, in every reachable state. -/

/-! ## What the fault record says is true (R23, R111 to R116) -/

section
namespace Sys2Proof.Machine

theorem opcodeAtIn_of_mem {s : State} {a : Nat} {op : Byte} {ops : List Byte} (hread : imemRead s a = some op)
    (hop : op ∈ ops) : opcodeAtIn s a ops = true := by
  simpa [opcodeAtIn, hread] using hop

theorem opcodeAtIn_raise {s : State} {i : Instr} {ops : List Byte} (hat : InstrAt s i) (hop : opcodeOf i ∈ ops)
    (f : Failure) : opcodeAtIn (s.raise f) (s.raise f).faultPc.toNat ops = true :=
  opcodeAtIn_of_mem (s := s.raise f) hat.opcode hop

/-- A failure of an instruction leaves its cause in view, since raising it changes nothing but status and the record. -/
theorem causeOf_raise_of_causeIn {i : Instr} {s : State} {f : Failure} (hat : InstrAt s i) (h : CauseIn i s f) :
    CauseOf (failureCode f) (s.raise f) := by
  cases f with
  | divisionByZero =>
    obtain ⟨hop, hzero⟩ := h
    exact ⟨opcodeAtIn_raise hat hop _, hzero⟩
  | stackOverflow =>
    obtain ⟨hop, hfull⟩ := h
    exact ⟨opcodeAtIn_raise hat hop _, hfull⟩
  | stackUnderflow =>
    obtain ⟨hop, hshort⟩ | ⟨hop, hempty⟩ := h
    · exact .inl ⟨opcodeAtIn_raise hat hop _, hshort⟩
    · exact .inr ⟨opcodeAtIn_raise hat hop _, hempty⟩
  | invalidOpcode _ => exact h.elim
  | truncatedStream => exact h.elim

/-- A failure of the fetch leaves its cause in view: the stream is as it was. -/
theorem causeOf_raise_of_fetch {s : State} {f : Failure} (h : fetch s = .fail f) :
    CauseOf (failureCode f) (s.raise f) := by
  obtain ⟨rfl, hend⟩ | ⟨op, rfl, hread, hop⟩ | ⟨op, form, rfl, hread, hform, hshort⟩ := fetch_fail_cases h
  · exact .inl hend
  · exact ⟨hread, hop⟩
  · exact .inr ⟨op, formWidth form, hread, operandWidth_of_form hform, hshort⟩

/-- Settles O21: a failing step is a `raise`, by the fetch or by the instruction, and leaves its cause in view. -/
theorem faultRecordTellsTheCause : Obligations.FaultRecordTellsTheCause := by
  refine ⟨⟨rfl, rfl, rfl, rfl, rfl, rfl⟩, fun s t h ht => ?_⟩
  obtain ⟨hrun, ⟨f, hfetch, rfl⟩ | ⟨i, hat, rfl⟩⟩ := step_instrAt_cases h
  · exact ⟨rfl, causeOf_raise_of_fetch hfetch⟩
  · obtain ⟨f, he, hcause⟩ := effect_failed_cause (by simp [hrun]) ht
    rw [he]
    exact ⟨rfl, causeOf_raise_of_causeIn hat hcause⟩

end Sys2Proof.Machine
end

/-! ## The depth of the stack (R20) -/

section
namespace Sys2Proof.Machine

theorem pushForm_depthOk {v : F64} {len : Offset} {s : State} (h : DepthOk s) : DepthOk (pushForm v len s) := by
  obtain ⟨hroom, he⟩ | ⟨-, he⟩ := pushForm_cases v len s
  · rw [he]
    exact hroom
  · rw [he]
    exact h

/-- A pop whose use of the value keeps the stack does not make it deeper. -/
theorem popForm_sp_le {use : State → F64 → State} (huse : ∀ u v, (use u v).stack = u.stack) (s : State) :
    (popForm use s).sp ≤ s.sp := by
  obtain ⟨v, rest, hs, he⟩ | ⟨-, he⟩ := popForm_cases use s
  · simp [State.sp_eq_length, he, huse, hs]
  · simp [he]

theorem unaryForm_sp_le (f : F64 → F64) (s : State) : (unaryForm f s).sp ≤ s.sp := by
  obtain ⟨a, rest, hs, he⟩ | ⟨-, he⟩ := unaryForm_cases f s
  · simp [State.sp_eq_length, he, hs]
  · simp [he]

theorem binaryForm_sp_le (test : F64 → Option Failure) (op : F64 → F64 → F64) (s : State) :
    (binaryForm test op s).sp ≤ s.sp := by
  obtain ⟨b, a, rest, hs, -, he⟩ | ⟨_, _, _, _, -, -, he⟩ | ⟨-, he⟩ := binaryForm_cases test op s
  · simp [State.sp_eq_length, he, hs]
  · simp [he]
  · simp [he]

/-- No instruction makes the stack deeper than its capacity: only a push makes it deeper, and it tests for room. -/
theorem effect_depthOk (i : Instr) {s : State} (h : DepthOk s) : DepthOk (effect i s) := by
  cases i with
  | dconstM1 | dconst0 | dconst1 | dconst2 | dconst _ | ld1 | ld2 => exact pushForm_depthOk h
  | halt | nop => exact h
  | jeq _ | jne _ | jlt _ | jle _ | jgt _ | jge _ => exact (congrArg List.length (jumpForm_stack ..)).trans_le h
  | add | sub | mul | div => exact (binaryForm_sp_le ..).trans h
  | neg => exact (unaryForm_sp_le ..).trans h
  | print => exact (popForm_sp_le (use := State.emit) (fun _ _ => rfl) s).trans h
  | st1 => exact (popForm_sp_le (use := fun u v => u.setReg .r1 v) (fun _ _ => rfl) s).trans h
  | st2 => exact (popForm_sp_le (use := fun u v => u.setReg .r2 v) (fun _ _ => rfl) s).trans h

theorem step_depthOk {s t : State} (h : step s = .next t) (hs : DepthOk s) : DepthOk t := by
  obtain ⟨-, ⟨f, -, rfl⟩ | ⟨i, -, rfl⟩⟩ := step_instrAt_cases h
  · exact hs
  · exact effect_depthOk i hs

end Sys2Proof.Machine
end

/-! ## The invariant -/

section
namespace Sys2Proof.Machine

theorem step_streamOk {s t : State} (h : step s = .next t) (hs : StreamOk s) : StreamOk t := by
  obtain ⟨hstream, hlen⟩ := step_sameStream h
  rwa [StreamOk, hstream, hlen]

/-- A failure raised is recorded as R23 and R120 say. -/
theorem recordOk_raise (s : State) (f : Failure) : RecordOk (s.raise f) :=
  ⟨iff_of_true rfl (failureCode_ne_none f), fun hnone => absurd hnone (failureCode_ne_none f),
    failureByte_of_failureCode_ne, fun _ => rfl⟩

/-- Without a failure, the record is in order exactly when it is clear. -/
theorem recordOk_iff_clear {s : State} (h : s.status ≠ .haltedFailure) :
    RecordOk s ↔ s.faultRecord = (FaultCode.none, 0, 0) := by
  simp only [RecordOk, State.faultRecord, Prod.mk.injEq]
  constructor
  · rintro ⟨hcode, hpc, hbyte, -⟩
    have hnone : s.faultCode = .none := not_not.1 fun hne => h (hcode.2 hne)
    exact ⟨hnone, hpc hnone, hbyte (by simp [hnone])⟩
  · rintro ⟨hcode, hpc, hbyte⟩
    exact ⟨by simp [h, hcode], fun _ => hpc, fun _ => hbyte, fun hfailed => absurd hfailed h⟩

theorem step_recordOk {s t : State} (h : step s = .next t) (hs : RecordOk s) : RecordOk t := by
  by_cases hfailed : t.status = .haltedFailure
  · obtain ⟨f, rfl, -⟩ := step_eq_raise_of_failed h hfailed
    exact recordOk_raise s f
  · have hrun : s.status ≠ .haltedFailure := by simp [(step_instrAt_cases h).1]
    obtain hkept | ⟨f, rfl⟩ := step_recordKeptOrRaised h
    · rw [recordOk_iff_clear hfailed, hkept]
      exact (recordOk_iff_clear hrun).1 hs
    · exact absurd (State.raise_status s f) hfailed

/-- A core that a step brings to HaltedSuccess stands one past the HALT byte it executed. -/
theorem step_haltOk {s t : State} (h : step s = .next t) : HaltOk t := by
  intro ht
  have hread := (step_haltedSuccess_iff h).1 ht
  obtain ⟨-, hlen⟩ := step_sameStream h
  obtain ⟨-, ⟨f, -, rfl⟩ | ⟨i, hat, rfl⟩⟩ := step_instrAt_cases h
  · exact nomatch (State.raise_status s f).symm.trans ht
  · obtain rfl := eq_halt_of_effect_haltedSuccess (by simp [(step_instrAt_cases h).1]) ht
    have hpc : (effect .halt s).pc.toNat = s.pc.toNat + 1 := effect_pc_toNat hat rfl nofun
    rw [hpc]
    exact ⟨Nat.succ_pos _, hread⟩

/-- Settles O22: each part of the invariant is kept by every step on its own; the HALT part holds after any step. -/
theorem stepKeepsInv : Obligations.StepKeepsInv := fun _ _ ⟨hdepth, hstream, hrecord, _⟩ h =>
  ⟨step_depthOk h hdepth, step_streamOk h hstream, step_recordOk h hrecord, step_haltOk h⟩

/-- Reset with a stream that is in order gives a state that is (R32, R129). -/
theorem inv_resetWith (s : State) {m : Memory} {len : Offset} (hm : Memory.wf m) (hlen : ∀ p ∈ m, p.1 < len.toNat) :
    Inv (s.resetWith m len) := by
  have hrun : (s.resetWith m len).status ≠ .haltedFailure := nofun
  exact ⟨Nat.zero_le _, ⟨hm, hlen⟩, (recordOk_iff_clear hrun).2 rfl, nofun⟩

/-- Settles O23: the reset state is bound to the stream of no bytes. -/
theorem resetMeetsInv : Obligations.ResetMeetsInv := inv_resetWith State.reset Memory.wf_nil (List.forall_mem_nil _)

end Sys2Proof.Machine
end

/-! ## The states a run begins in, and those it reaches (R129 to R133) -/

section
namespace Sys2Proof.Machine

theorem streamOk_iff (n : Nat) : streamOk n = true ↔ n < 2 ^ 32 := by
  rw [streamOk, decide_eq_true_iff, Config.maxStreamLen]
  omega

theorem create_of_fits {bytes : List Byte} (h : bytes.length < 2 ^ 32) :
    create bytes = some (State.reset.resetWith (listBytes 0 bytes) (BitVec.ofNat Config.pcWidth bytes.length)) :=
  if_pos ((streamOk_iff _).2 h)

theorem create_of_tooLong {bytes : List Byte} (h : 2 ^ 32 ≤ bytes.length) : create bytes = none :=
  if_neg fun hok => by
    have := (streamOk_iff _).1 hok
    omega

theorem toNat_ofNat_of_fits {n : Nat} (h : n < 2 ^ 32) : (BitVec.ofNat Config.pcWidth n).toNat = n := by
  rw [Offset.toNat_ofNat, Nat.mod_eq_of_lt h]

/-- The read port on a presented stream gives its bytes, and nothing past them. -/
theorem imemRead_resetWith_listBytes (s : State) {bytes : List Byte} (h : bytes.length < 2 ^ 32) (a : Nat) :
    imemRead (s.resetWith (listBytes 0 bytes) (BitVec.ofNat Config.pcWidth bytes.length)) a = bytes[a]? := by
  have hlen : (s.resetWith (listBytes 0 bytes) (BitVec.ofNat Config.pcWidth bytes.length)).streamLen.toNat =
      bytes.length := toNat_ofNat_of_fits h
  rcases Nat.lt_or_ge a bytes.length with ha | ha
  · have hget := get_listBytes (a := 0) (List.getElem?_eq_getElem ha)
    rw [Nat.zero_add] at hget
    rw [imemRead_of_lt (by rwa [hlen]), List.getElem?_eq_getElem ha]
    exact congrArg some hget
  · rw [List.getElem?_eq_none ha]
    exact if_neg (by omega)

/-- Settles O3: the listing of a stream reads as the stream, and its length fits the program counter. -/
theorem createBindsTheStream : Obligations.CreateBindsTheStream := fun _ =>
  ⟨create_of_tooLong, fun h =>
    ⟨_, create_of_fits h, toNat_ofNat_of_fits h, imemRead_resetWith_listBytes State.reset h, rfl⟩⟩

/-- Settles O24: the listing of a stream is canonical and stands below its length. -/
theorem createMeetsInv : Obligations.CreateMeetsInv := by
  intro bytes s h
  rcases Nat.lt_or_ge bytes.length (2 ^ 32) with hfits | hlong
  · obtain rfl := Option.some.inj ((create_of_fits hfits).symm.trans h)
    refine inv_resetWith _ (Memory.wf_listBytes 0 bytes) fun p hp => ?_
    rw [toNat_ofNat_of_fits hfits]
    simpa using (mem_listBytes hp).2
  · exact nomatch (create_of_tooLong hlong).symm.trans h

/-- Every reachable state meets the invariant. -/
theorem Reachable.inv {s : State} (h : Reachable s) : Inv s := by
  induction h with
  | boot bytes s h => exact createMeetsInv bytes s h
  | step s t _ h ih => exact stepKeepsInv s t ih h

/-- A reachable state that has failed came to it by a failing step, which left the cause in view. -/
theorem Reachable.causeOf {s : State} (h : Reachable s) (hfailed : s.status = .haltedFailure) :
    CauseOf s.faultCode s := by
  cases h with
  | boot bytes _ h =>
    rcases Nat.lt_or_ge bytes.length (2 ^ 32) with hfits | hlong
    · obtain rfl := Option.some.inj ((create_of_fits hfits).symm.trans h)
      exact nomatch hfailed
    · exact nomatch (create_of_tooLong hlong).symm.trans h
  | step t _ _ h => exact (faultRecordTellsTheCause.2 t s h hfailed).2

/-- Settles O25: the invariant ties the record to the status, and a clear record claims no cause. -/
theorem reachableFailuresShowTheirCause : Obligations.ReachableFailuresShowTheirCause := by
  intro s h
  obtain ⟨-, -, ⟨hrecord, -⟩, -⟩ := h.inv
  refine ⟨hrecord, ?_⟩
  by_cases hfailed : s.status = .haltedFailure
  · exact h.causeOf hfailed
  · rw [not_not.1 fun hne => hfailed (hrecord.2 hne)]
    trivial

/-- Settles O1: each field of the reset state is written out in its definition. -/
theorem resetValues : Obligations.ResetValues := ⟨rfl, rfl, rfl, rfl, rfl, rfl, rfl, rfl, rfl⟩

/-- Settles O2: reset forgets the state it starts from, and a halted core has no step. -/
theorem resetFromAnyState : Obligations.ResetFromAnyState := by
  refine ⟨fun s m len => ⟨rfl, rfl, rfl, rfl, rfl, rfl, rfl, rfl, rfl, rfl, rfl, fun hlen => ?_⟩,
    fun s t hs => step_ne_next_of_halted hs t⟩
  subst hlen
  exact step_of_fail (s := s.resetWith m 0) rfl (fetch_of_pastEnd (Nat.zero_le _))

end Sys2Proof.Machine
end

/-! SUPPORT. The proofs of the statements of spec/41_constants (R67 to R71), of spec/42_jumps on the six jumps (R76 to R82), of
spec/43_arithmetic on the five instructions (R92 to R96) and on negation (R90), of spec/44_register_transfer on the round trip
(R104), and of spec/10_state on the result port (R31). -/

/-! ## The constants (R67 to R71) -/

section
namespace Sys2Proof.Machine

section
variable {i : Instr} {s : State} {v : F64} {len : Offset}

theorem exec_of_push_room (hi : effect i s = pushForm v len s) (h : s.sp < 256) :
    exec i s = .next ((s.push v).advance len) := by
  rw [exec_eq_effect, hi, pushForm_of_room h]

theorem exec_of_push_full (hi : effect i s = pushForm v len s) (h : s.sp = 256) :
    exec i s = .next (s.raise .stackOverflow) := by
  rw [exec_eq_effect, hi, pushForm_of_full h.ge]

end

/-- Settles O28: the four small constants are push forms of one byte, each with its own pattern. -/
theorem smallConstantRules : Obligations.SmallConstantRules := by
  refine ⟨fun rest => ?_, fun s hroom => ?_, fun s i hi hfull => ?_⟩
  · exact ⟨decode_of_formZ opcodeForm_dconstM1 rest, decode_of_formZ opcodeForm_dconst0 rest,
      decode_of_formZ opcodeForm_dconst1 rest, decode_of_formZ opcodeForm_dconst2 rest⟩
  · exact ⟨exec_of_push_room rfl hroom, exec_of_push_room rfl hroom, exec_of_push_room rfl hroom,
      exec_of_push_room rfl hroom⟩
  · have hpush : ∃ v, effect i s = pushForm v 1 s := by
      simp only [List.mem_cons, List.not_mem_nil, or_false] at hi
      obtain rfl | rfl | rfl | rfl := hi <;> exact ⟨_, rfl⟩
    obtain ⟨v, hv⟩ := hpush
    exact exec_of_push_full hv hfull

/-- Settles O29: DCONST is the push form of nine bytes, and its operand is fetched before the stack is looked at. -/
theorem dconstRule : Obligations.DconstRule := by
  refine ⟨fun _ => rfl, fun s imm hroom => exec_of_push_room rfl hroom, fun s imm hfull => exec_of_push_full rfl hfull,
    fun s hrun hread hshort => ?_⟩
  exact step_of_fail hrun (fetch_of_truncated hread opcodeForm_dconst (by simp only [formWidth]; omega))

end Sys2Proof.Machine
end

/-! ## The jumps (R76 to R82) -/

section
namespace Sys2Proof.Machine

theorem exec_of_jump {i : Instr} {rel : F64 → F64 → Bool} {addr : Offset} {s : State}
    (hi : effect i s = jumpForm rel addr s) :
    exec i s = .next { s with pc := if rel s.r1 s.r2 then addr else s.pc + 5 } := by
  rw [exec_eq_effect, hi, jumpForm_eq]

/-- The six opcodes of format J have a form of that format. -/
theorem exists_formJ {op : Byte} (h : op ∈ jOpcodes) : ∃ make, opcodeForm op = some (.j make) := by
  simp only [jOpcodes, List.mem_cons, List.not_mem_nil, or_false] at h
  obtain rfl | rfl | rfl | rfl | rfl | rfl := h <;> exact ⟨_, rfl⟩

/-- Settles O30: all six are the jump form, each with its relation, and a jump's operand is fetched taken or not. -/
theorem jumpRules : Obligations.JumpRules := by
  refine ⟨fun s addr => ?_, fun addr => ⟨⟨rfl, rfl, rfl, rfl, rfl, rfl⟩, ?_⟩, fun s op hop hrun hread hshort => ?_⟩
  · exact ⟨exec_of_jump rfl, exec_of_jump rfl, exec_of_jump rfl, exec_of_jump rfl, exec_of_jump (rel := f64Gt) rfl,
      exec_of_jump (rel := f64Ge) rfl⟩
  · simp only [List.forall_mem_cons]
    exact ⟨rfl, rfl, rfl, rfl, rfl, rfl, List.forall_mem_nil _⟩
  · obtain ⟨make, hform⟩ := exists_formJ hop
    exact step_of_fail hrun (fetch_of_truncated hread hform (by simp only [formWidth]; omega))

end Sys2Proof.Machine
end

/-! ## Negation (R90) -/

section
namespace Sys2Proof.Machine

/-- Negation inverts the sign of a pattern and keeps its magnitude. -/
theorem f64Neg_eq (a : F64) : f64Neg a = ofSignMag (!signBit a) (magOf a) := by
  have hmag : a.extractLsb' 0 63 = BitVec.ofNat 63 (magOf a) := by
    apply BitVec.eq_of_toNat_eq
    rw [extract_toNat, BitVec.toNat_ofNat, Nat.mod_eq_of_lt (magOf_lt a), Nat.pow_zero, Nat.div_one, magOf]
  rw [f64Neg, ofSignMag, hmag]

theorem signBit_f64Neg (a : F64) : signBit (f64Neg a) = !signBit a := by
  rw [f64Neg_eq, signBit_ofSignMag _ (magOf_lt a)]

theorem magOf_f64Neg (a : F64) : magOf (f64Neg a) = magOf a := by
  rw [f64Neg_eq, magOf_ofSignMag _ (magOf_lt a)]

theorem f64Neg_f64Neg (a : F64) : f64Neg (f64Neg a) = a := by
  rw [f64Neg_eq, signBit_f64Neg, magOf_f64Neg, Bool.not_not, ofSignMag_eq]

theorem isNaN_f64Neg (a : F64) : isNaN (f64Neg a) = isNaN a := by
  rw [Bool.eq_iff_iff, isNaN_iff, isNaN_iff, magOf_f64Neg]

theorem isInf_f64Neg (a : F64) : isInf (f64Neg a) = isInf a := by
  rw [Bool.eq_iff_iff, isInf_iff, isInf_iff, magOf_f64Neg]

theorem isFinite_f64Neg (a : F64) : isFinite (f64Neg a) = isFinite a := by
  rw [isFinite, isFinite, isNaN_f64Neg, isInf_f64Neg]

theorem signed_not (neg : Bool) (units : Nat) : signed (!neg) units = -signed neg units := by
  cases neg <;> simp [signed]

theorem value_f64Neg (a : F64) : value (f64Neg a) = -value a := by
  rw [value_eq, value_eq, signBit_f64Neg, magOf_f64Neg, signed_not, Int.cast_neg, neg_div]

/-- The bits below the sign are those of the magnitude. -/
theorem getLsbD_eq_testBit_magOf (v : F64) {k : Nat} (hk : k < 63) : v.getLsbD k = (magOf v).testBit k := by
  rw [magOf, Nat.testBit_mod_two_pow, decide_eq_true hk, Bool.true_and, BitVec.getLsbD]

theorem getLsbD_f64Neg (a : F64) {k : Nat} (hk : k < 63) : (f64Neg a).getLsbD k = a.getLsbD k := by
  rw [getLsbD_eq_testBit_magOf _ hk, getLsbD_eq_testBit_magOf _ hk, magOf_f64Neg]

/-- Negation flips bit 63 and no other. -/
theorem f64Neg_eq_xor (a : F64) : f64Neg a = a ^^^ 0x8000000000000000 := by
  have hconst : (0x8000000000000000 : F64) = BitVec.twoPow 64 63 := by decide
  apply BitVec.eq_of_getLsbD_eq
  intro k hk
  rw [BitVec.getLsbD_xor, hconst, BitVec.getLsbD_twoPow]
  rcases Nat.lt_or_ge k 63 with hlow | hhigh
  · simp [getLsbD_f64Neg a hlow, (Nat.ne_of_lt hlow).symm]
  · obtain rfl : k = 63 := by
      have : Config.xlenF = 64 := rfl
      omega
    simpa [signBit] using signBit_f64Neg a

/-- Settles O40: negation keeps the magnitude, which decides the class, and inverts the sign. -/
theorem negationLaw : Obligations.NegationLaw := fun a =>
  ⟨fun _ hk => getLsbD_f64Neg a hk, signBit_f64Neg a, f64Neg_f64Neg a, isNaN_f64Neg a, isInf_f64Neg a,
    fun _ => value_f64Neg a⟩

end Sys2Proof.Machine
end

/-! ## ADD, SUB, MUL, DIV, NEG (R92 to R96) -/

section
namespace Sys2Proof.Machine

section
variable {i : Instr} {test : F64 → Option Failure} {op : F64 → F64 → F64} {s : State}
  (hi : effect i s = binaryForm test op s)
include hi

theorem exec_of_binary_pass {a b : F64} {below : List F64} (hs : s.stack = b :: a :: below) (ht : test b = none) :
    exec i s = .next ((s.setStack (op a b :: below)).advance 1) := by
  rw [exec_eq_effect, hi, binaryForm_of_pass op hs ht]

theorem exec_of_binary_fail {a b : F64} {below : List F64} {f : Failure} (hs : s.stack = b :: a :: below)
    (ht : test b = some f) : exec i s = .next (s.raise f) := by
  rw [exec_eq_effect, hi, binaryForm_of_fail op hs ht]

theorem exec_of_binary_short (h : s.sp < 2) : exec i s = .next (s.raise .stackUnderflow) := by
  rw [exec_eq_effect, hi, binaryForm_of_short test op h]

end

/-- The rule of a binary instruction with no test of its own (R92 to R94). -/
theorem binaryRule_of_noTest {opcode : Byte} {i : Instr} {op : F64 → F64 → F64} (hform : opcodeForm opcode = some (.z i))
    (hi : ∀ s, effect i s = binaryForm noTest op s) :
    (∀ rest, decode (opcode :: rest) = .instr i rest) ∧
    (∀ (s : State) (a b : F64) (below : List F64), s.stack = b :: a :: below →
      exec i s = .next { s with stack := op a b :: below, pc := s.pc + 1 }) ∧
    ∀ s : State, s.sp < 2 → exec i s = .next (afterFailure s .stackUnderflow 0) :=
  ⟨decode_of_formZ hform, fun s _ _ _ hs => exec_of_binary_pass (hi s) hs rfl,
    fun s hshort => exec_of_binary_short (hi s) hshort⟩

/-- Settles O35: ADD is the binary form of `f64Add`, with no test of its own. -/
theorem addRule : Obligations.AddRule := binaryRule_of_noTest opcodeForm_add fun _ => rfl

/-- Settles O36: SUB is the binary form of `f64Sub`, with no test of its own. -/
theorem subRule : Obligations.SubRule := binaryRule_of_noTest opcodeForm_sub fun _ => rfl

/-- Settles O37: MUL is the binary form of `f64Mul`, with no test of its own. -/
theorem mulRule : Obligations.MulRule := binaryRule_of_noTest opcodeForm_mul fun _ => rfl

theorem zeroTest_of_zero {b : F64} (h : isZero b = true) : zeroTest b = some .divisionByZero := by
  rw [zeroTest, f64Eq_posZero, if_pos h]

/-- The two zeros, as patterns (R7). -/
theorem isZero_iff_eq (b : F64) : isZero b = true ↔ b = 0x0000000000000000 ∨ b = 0x8000000000000000 := by
  have hlt := F64.toNat_lt b
  rw [isZero_iff, magOf, ← BitVec.toNat_inj, ← BitVec.toNat_inj]
  simp only [BitVec.ofNat_eq_ofNat, BitVec.toNat_ofNat, Config.two_pow_xlenF, Nat.reduceMod, Nat.zero_mod]
  omega

/-- Settles O38: DIV is the binary form of `f64Div`, whose test refuses the two zeros. -/
theorem divRule : Obligations.DivRule := by
  refine ⟨decode_of_formZ opcodeForm_div, fun s a b below hs hb => ?_, fun s a b below hs hb => ?_, isZero_iff_eq,
    fun s hshort => ?_⟩
  · exact exec_of_binary_pass (test := zeroTest) rfl hs (zeroTest_of_nonzero hb)
  · exact exec_of_binary_fail (test := zeroTest) (op := f64Div) rfl hs (zeroTest_of_zero hb)
  · exact exec_of_binary_short (test := zeroTest) rfl hshort

/-- Settles O39: NEG is the unary form of `f64Neg`, which flips the sign bit. -/
theorem negRule : Obligations.NegRule := by
  refine ⟨decode_of_formZ opcodeForm_neg, fun s a below hs => ?_, fun s hempty => ?_⟩
  · rw [← f64Neg_eq_xor]
    exact (exec_eq_effect .neg s).trans (congrArg _ (unaryForm_of_cons f64Neg hs))
  · exact (exec_eq_effect .neg s).trans
      (congrArg _ (unaryForm_of_nil f64Neg (List.eq_nil_of_length_eq_zero hempty)))

end Sys2Proof.Machine
end

/-! ## A store and a load (R104) -/

section
namespace Sys2Proof.Machine

/-- A store and a load of one register give back the stack, with the value in that register and in no other. -/
theorem exec_storeOf_loadOf (r : Reg) {s : State} {v : F64} {below : List F64} (hs : s.stack = v :: below)
    (hdepth : s.sp ≤ 256) :
    ∃ t u, exec (storeOf r) s = .next t ∧ exec (loadOf r) t = .next u ∧ u.stack = v :: below ∧
      ∀ q, u.getReg q = if q = r then v else s.getReg q := by
  have hroom : (((s.setStack below).setReg r v).advance 1).sp < Config.stackCapacity := by
    rw [State.sp_eq_length, hs, List.length_cons] at hdepth
    rw [State.sp_advance, State.sp_setReg, State.sp_setStack]
    exact hdepth
  refine ⟨_, _, exec_storeOf_of_cons r hs, exec_loadOf_of_room r hroom, ?_, fun q => ?_⟩
  · cases r <;> rfl
  · cases r <;> cases q <;> rfl

/-- Settles O50: the store makes the room that the load needs. -/
theorem transferRoundTrip : Obligations.TransferRoundTrip := by
  intro s v below hs hdepth
  constructor
  · obtain ⟨t, u, hstore, hload, hstack, hreg⟩ := exec_storeOf_loadOf .r1 hs hdepth
    exact ⟨t, u, hstore, hload, hstack, hreg .r1, hreg .r2⟩
  · obtain ⟨t, u, hstore, hload, hstack, hreg⟩ := exec_storeOf_loadOf .r2 hs hdepth
    exact ⟨t, u, hstore, hload, hstack, hreg .r2, hreg .r1⟩

end Sys2Proof.Machine
end

/-! ## The result port (R22, R23, R31) -/

section
namespace Sys2Proof.Machine

theorem executionResult_of_failed {s : State} (h : s.status = .haltedFailure) : executionResult s = failureResult s := by
  rw [executionResult, h]

/-- Settles O58: the port shows the four fields, and the result of a run is read off them. -/
theorem resultMapping : Obligations.ResultMapping := by
  intro s
  refine ⟨?_, ?_, rfl, rfl, rfl, rfl, fun h => ?_, fun h => ?_, fun h => ?_⟩
  · change statusBits s.status = _
    cases s.status <;> rfl
  · change faultCodeBits s.faultCode = _
    cases s.faultCode <;> rfl
  · rw [executionResult, h]
  · rw [executionResult, h]
  · rw [executionResult_of_failed h, failureResult]
    refine ⟨fun hc => ?_, fun hc => ?_, fun hc => ?_, fun hc => ?_, fun hc => ?_⟩ <;> rw [hc]

end Sys2Proof.Machine
end

/-! SUPPORT. The proofs of the statements of spec/00_scope on the binary64 layout (R7) and of spec/42_jumps on the comparisons
(R73 to R75). -/

/-! ## The three classes of patterns (R7) -/

section
namespace Sys2Proof.Machine

variable {v : F64}

theorem isInf_of_isNaN (h : isNaN v = true) : isInf v = false := by
  have hmag := (isNaN_iff v).1 h
  rw [← Bool.not_eq_true, isInf_iff]
  omega

theorem isFinite_of_isNaN (h : isNaN v = true) : isFinite v = false := by simp [isFinite, h]

theorem isNaN_of_isInf (h : isInf v = true) : isNaN v = false := by
  by_contra hnan
  exact nomatch (isInf_of_isNaN (by simpa using hnan)).symm.trans h

theorem isFinite_of_isInf (h : isInf v = true) : isFinite v = false := by simp [isFinite, h]

theorem isNaN_of_isFinite (h : isFinite v = true) : isNaN v = false := by
  simp only [isFinite, Bool.and_eq_true, Bool.not_eq_true'] at h
  exact h.1

theorem isInf_of_isFinite (h : isFinite v = true) : isInf v = false := by
  simp only [isFinite, Bool.and_eq_true, Bool.not_eq_true'] at h
  exact h.2

/-- A pattern that is no NaN is an infinity or finite. -/
theorem inf_or_finite (h : isNaN v = false) : isInf v = true ∨ isFinite v = true := by
  cases hinf : isInf v <;> simp [isFinite, h, hinf]

theorem isFinite_of_isZero (h : isZero v = true) : isFinite v = true := by
  rw [isFinite_iff, (isZero_iff v).1 h]
  decide

theorem isZero_of_isInf (h : isInf v = true) : isZero v = false := by
  by_contra hzero
  exact nomatch (isFinite_of_isInf h).symm.trans (isFinite_of_isZero (by simpa using hzero))

end Sys2Proof.Machine
end

/-! ## The value of a finite pattern (R7) -/

section
namespace Sys2Proof.Machine

/-- The exact value of a finite pattern in units of 2^-1074, with its sign. -/
def signedUnits (v : F64) : Int := signed (signBit v) (unitsOf (magOf v))

theorem value_eq_signedUnits (v : F64) : value v = (signedUnits v : ℚ) / 2 ^ 1074 := value_eq v

theorem two_pow_unit_pos : (0 : ℚ) < 2 ^ 1074 := pow_pos two_pos _

theorem two_pow_unit_ne_zero : (2 : ℚ) ^ 1074 ≠ 0 := pow_ne_zero _ two_ne_zero

theorem value_eq_value_iff (a b : F64) : value a = value b ↔ signedUnits a = signedUnits b := by
  rw [value_eq_signedUnits, value_eq_signedUnits, div_left_inj' two_pow_unit_ne_zero, Int.cast_inj]

theorem value_lt_value_iff (a b : F64) : value a < value b ↔ signedUnits a < signedUnits b := by
  rw [value_eq_signedUnits, value_eq_signedUnits, div_lt_div_iff_of_pos_right two_pow_unit_pos, Int.cast_lt]

theorem signedUnits_eq_zero_iff (v : F64) : signedUnits v = 0 ↔ isZero v = true := by
  rw [signedUnits, signed_eq_zero_iff, unitsOf_eq_zero_iff, isZero_iff]

theorem value_eq_zero_iff (v : F64) : value v = 0 ↔ isZero v = true := by
  rw [value_eq_signedUnits, div_eq_zero_iff, or_iff_left two_pow_unit_ne_zero, Int.cast_eq_zero, signedUnits_eq_zero_iff]

/-- The sign of a number of units as a factor. -/
theorem signed_cast (neg : Bool) (units : Nat) : (signed neg units : ℚ) = (if neg then -1 else 1) * (units : ℚ) := by
  cases neg <;> simp [signed]

theorem finiteUnits_of_normal {e : Nat} (he : e ≠ 0) (f : Nat) : finiteUnits e f = (2 ^ 52 + f) * 2 ^ (e - 1) := if_neg he

theorem finiteUnits_of_subnormal (f : Nat) : finiteUnits 0 f = f := if_pos rfl

/-- The unit is the last place of the least normal numbers, 52 places below 2^-1022. -/
theorem two_pow_unit : (2 : ℚ) ^ 1074 = 2 ^ 1022 * 2 ^ 52 := by rw [← pow_add]

/-- The power of a biased exponent, in naturals. -/
theorem two_zpow_biased {e : Nat} (he : e ≠ 0) : (2 : ℚ) ^ ((e : ℤ) - 1023) = 2 ^ (e - 1) / 2 ^ 1022 := by
  have hexp : ((e : ℤ) - 1023) = ((e - 1 : ℕ) : ℤ) - (1022 : ℕ) := by omega
  rw [hexp, zpow_sub₀ two_ne_zero, zpow_natCast, zpow_natCast]

theorem value_of_normal {v : F64} (h : expField v ≠ 0) :
    value v = (if signBit v then -1 else 1) * (2 : ℚ) ^ (((expField v).toNat : ℤ) - 1023) *
      (1 + (fracField v).toNat / 2 ^ 52) := by
  have he : (expField v).toNat ≠ 0 := fun h0 => h (BitVec.eq_of_toNat_eq h0)
  rw [value, signed_cast, finiteUnits_of_normal he, two_zpow_biased he, two_pow_unit]
  have hpos : (2 : ℚ) ^ 1022 ≠ 0 := pow_ne_zero _ two_ne_zero
  generalize (2 : ℚ) ^ 1022 = U at hpos ⊢
  push_cast
  field_simp
  norm_num

theorem value_of_subnormal {v : F64} (h : expField v = 0) :
    value v = (if signBit v then -1 else 1) * (2 : ℚ) ^ (-1022 : ℤ) * ((fracField v).toNat / 2 ^ 52) := by
  have hexp : (2 : ℚ) ^ (-1022 : ℤ) = 1 / 2 ^ 1022 := by rw [one_div, ← zpow_natCast, ← zpow_neg]; rfl
  rw [value, signed_cast, h, show ((0 : BitVec 11).toNat) = 0 from rfl, finiteUnits_of_subnormal, hexp, two_pow_unit]
  have hpos : (2 : ℚ) ^ 1022 ≠ 0 := pow_ne_zero _ two_ne_zero
  generalize (2 : ℚ) ^ 1022 = U at hpos ⊢
  field_simp

theorem isFinite_iff_expField (v : F64) : isFinite v = true ↔ expField v ≠ 0x7FF := by
  by_cases he : expField v = 0x7FF
  · by_cases hf : fracField v = 0 <;> simp [isFinite, isNaN, isInf, he, hf]
  · have hbeq : (expField v == 0x7FF) = false := beq_eq_false_iff_ne.2 he
    simp only [isFinite, isNaN, isInf, hbeq, Bool.false_and, Bool.not_false, Bool.and_self, ne_eq, he, not_false_eq_true]

/-- Settles O41: the units of a pattern are its significand, scaled by its exponent above the subnormals. -/
theorem binaryLayout : Obligations.BinaryLayout := fun v =>
  ⟨fun h _ => value_of_normal h, value_of_subnormal, isFinite_iff_expField v,
    fun h => ⟨isFinite_of_isZero h, (value_eq_zero_iff v).2 h⟩, fun h => (value_eq_zero_iff v).1 h.2⟩

end Sys2Proof.Machine
end

/-! ## The comparisons, by the classes of the two patterns (R73, R74) -/

section
namespace Sys2Proof.Machine

variable {a b : F64}

theorem f64Eq_of_nan (h : isNaN a = true ∨ isNaN b = true) : f64Eq a b = false := by
  obtain h | h := h
  · delta f64Eq
    rw [classify_of_nan h]
  · delta f64Eq
    rw [classify_of_nan h]
    cases classify a <;> rfl

theorem f64Eq_of_inf_inf (ha : isInf a = true) (hb : isInf b = true) : f64Eq a b = (signBit a == signBit b) := by
  delta f64Eq
  rw [classify_of_inf ha, classify_of_inf hb]

theorem f64Eq_of_inf_finite (ha : isInf a = true) (hb : isFinite b = true) : f64Eq a b = false := by
  delta f64Eq
  rw [classify_of_inf ha, classify_of_finite hb]

theorem f64Eq_of_finite_inf (ha : isFinite a = true) (hb : isInf b = true) : f64Eq a b = false := by
  delta f64Eq
  rw [classify_of_finite ha, classify_of_inf hb]

theorem f64Eq_of_finite (ha : isFinite a = true) (hb : isFinite b = true) : f64Eq a b = decide (value a = value b) := by
  delta f64Eq
  rw [classify_of_finite ha, classify_of_finite hb]
  exact decide_eq_decide.2 (value_eq_value_iff a b).symm

theorem f64Lt_of_nan (h : isNaN a = true ∨ isNaN b = true) : f64Lt a b = false := by
  obtain h | h := h
  · delta f64Lt
    rw [classify_of_nan h]
  · delta f64Lt
    rw [classify_of_nan h]
    cases classify a <;> rfl

theorem f64Lt_of_inf_inf (ha : isInf a = true) (hb : isInf b = true) : f64Lt a b = (signBit a && !signBit b) := by
  delta f64Lt
  rw [classify_of_inf ha, classify_of_inf hb]

theorem f64Lt_of_inf_finite (ha : isInf a = true) (hb : isFinite b = true) : f64Lt a b = signBit a := by
  delta f64Lt
  rw [classify_of_inf ha, classify_of_finite hb]

theorem f64Lt_of_finite_inf (ha : isFinite a = true) (hb : isInf b = true) : f64Lt a b = !signBit b := by
  delta f64Lt
  rw [classify_of_finite ha, classify_of_inf hb]

theorem f64Lt_of_finite (ha : isFinite a = true) (hb : isFinite b = true) : f64Lt a b = decide (value a < value b) := by
  delta f64Lt
  rw [classify_of_finite ha, classify_of_finite hb]
  exact decide_eq_decide.2 (value_lt_value_iff a b).symm

theorem f64Le_of_nan (h : isNaN a = true ∨ isNaN b = true) : f64Le a b = false := by
  rw [f64Le, f64Lt_of_nan h, f64Eq_of_nan h, Bool.or_false]

theorem not_nan_iff : ¬(isNaN a = true ∨ isNaN b = true) ↔ isNaN a = false ∧ isNaN b = false := by simp

theorem not_nan_of_f64Eq (h : f64Eq a b = true) : isNaN a = false ∧ isNaN b = false :=
  not_nan_iff.1 fun hnan => nomatch (f64Eq_of_nan hnan).symm.trans h

theorem not_nan_of_f64Lt (h : f64Lt a b = true) : isNaN a = false ∧ isNaN b = false :=
  not_nan_iff.1 fun hnan => nomatch (f64Lt_of_nan hnan).symm.trans h

/-- Of two patterns that are no NaNs exactly one of less, equal and greater holds; equality has no side. -/
theorem compare_cases (ha : isNaN a = false) (hb : isNaN b = false) :
    f64Eq b a = f64Eq a b ∧
    ((f64Eq a b = true ∧ f64Lt a b = false ∧ f64Lt b a = false) ∨
     (f64Eq a b = false ∧ f64Lt a b = true ∧ f64Lt b a = false) ∨
     (f64Eq a b = false ∧ f64Lt a b = false ∧ f64Lt b a = true)) := by
  obtain hia | hfa := inf_or_finite ha <;> obtain hib | hfb := inf_or_finite hb
  · rw [f64Eq_of_inf_inf hia hib, f64Eq_of_inf_inf hib hia, f64Lt_of_inf_inf hia hib, f64Lt_of_inf_inf hib hia]
    cases signBit a <;> cases signBit b <;> decide
  · rw [f64Eq_of_inf_finite hia hfb, f64Eq_of_finite_inf hfb hia, f64Lt_of_inf_finite hia hfb, f64Lt_of_finite_inf hfb hia]
    cases signBit a <;> decide
  · rw [f64Eq_of_finite_inf hfa hib, f64Eq_of_inf_finite hib hfa, f64Lt_of_finite_inf hfa hib, f64Lt_of_inf_finite hib hfa]
    cases signBit b <;> decide
  · rw [f64Eq_of_finite hfa hfb, f64Eq_of_finite hfb hfa, f64Lt_of_finite hfa hfb, f64Lt_of_finite hfb hfa]
    obtain h | h | h := lt_trichotomy (value a) (value b)
    · simp [h, h.ne, h.ne', h.le]
    · simp [h]
    · simp [h, h.ne, h.ne', h.le]

/-- Settles O31: a NaN equals nothing, and the other classes are compared within themselves. -/
theorem equalityLaw : Obligations.EqualityLaw := by
  intro a b
  refine ⟨?_, rfl⟩
  by_cases hnan : isNaN a = true ∨ isNaN b = true
  · rw [f64Eq_of_nan hnan]
    exact iff_of_false nofun fun h => not_nan_iff.2 ⟨h.1, h.2.1⟩ hnan
  · obtain ⟨ha, hb⟩ := not_nan_iff.1 hnan
    obtain hia | hfa := inf_or_finite ha <;> obtain hib | hfb := inf_or_finite hb
    · simp [f64Eq_of_inf_inf hia hib, ha, hb, hia, hib, isFinite_of_isInf]
    · simp [f64Eq_of_inf_finite hia hfb, ha, hb, hia, hfb, isFinite_of_isInf, isInf_of_isFinite]
    · simp [f64Eq_of_finite_inf hfa hib, ha, hb, hfa, hib, isFinite_of_isInf, isInf_of_isFinite]
    · simp [f64Eq_of_finite hfa hfb, ha, hb, hfa, hfb, isInf_of_isFinite]

/-- What `f64Lt` is on patterns that are no NaNs (R74). -/
theorem f64Lt_iff (ha : isNaN a = false) (hb : isNaN b = false) :
    f64Lt a b = true ↔ (isFinite a = true ∧ isFinite b = true ∧ value a < value b) ∨
      (isInf a = true ∧ signBit a = true ∧ ¬(isInf b = true ∧ signBit b = true)) ∨
      (isInf b = true ∧ signBit b = false ∧ ¬(isInf a = true ∧ signBit a = false)) := by
  obtain hia | hfa := inf_or_finite ha <;> obtain hib | hfb := inf_or_finite hb
  · rw [f64Lt_of_inf_inf hia hib]
    cases hsa : signBit a <;> cases hsb : signBit b <;> simp [hia, hib, isFinite_of_isInf]
  · simp [f64Lt_of_inf_finite hia hfb, hia, isFinite_of_isInf, isInf_of_isFinite hfb]
  · simp [f64Lt_of_finite_inf hfa hib, hib, isFinite_of_isInf, isInf_of_isFinite hfa]
  · simp [f64Lt_of_finite hfa hfb, hfa, hfb, isInf_of_isFinite]

/-- Settles O32: NaNs are unordered, and the order of the others is read off their classes. -/
theorem orderLaw : Obligations.OrderLaw := by
  intro a b
  refine ⟨?_, ?_, rfl, rfl, fun hnan => ⟨f64Lt_of_nan hnan, f64Le_of_nan hnan, f64Lt_of_nan hnan.symm,
    f64Le_of_nan hnan.symm⟩⟩
  · by_cases hnan : isNaN a = true ∨ isNaN b = true
    · rw [f64Lt_of_nan hnan]
      exact iff_of_false nofun fun h => not_nan_iff.2 ⟨h.1, h.2.1⟩ hnan
    · obtain ⟨ha, hb⟩ := not_nan_iff.1 hnan
      simp only [f64Lt_iff ha hb, ha, hb, true_and]
  · rw [f64Le, Bool.or_eq_true]
    refine ⟨fun h => ?_, fun h => h.2.2⟩
    obtain ⟨ha, hb⟩ : isNaN a = false ∧ isNaN b = false := h.elim not_nan_of_f64Lt not_nan_of_f64Eq
    exact ⟨ha, hb, h⟩

end Sys2Proof.Machine
end

/-! ## The outcome of each jump (R75) -/

section
namespace Sys2Proof.Machine

/-- What equality and order say of r1 and r2 decides all six jumps. -/
theorem exec_jumps (s : State) (addr : Offset) {e l g : Bool} (he : f64Eq s.r1 s.r2 = e) (he' : f64Eq s.r2 s.r1 = e)
    (hl : f64Lt s.r1 s.r2 = l) (hg : f64Lt s.r2 s.r1 = g) :
    exec (.jeq addr) s = .next { s with pc := if e then addr else s.pc + 5 } ∧
    exec (.jne addr) s = .next { s with pc := if !e then addr else s.pc + 5 } ∧
    exec (.jlt addr) s = .next { s with pc := if l then addr else s.pc + 5 } ∧
    exec (.jle addr) s = .next { s with pc := if l || e then addr else s.pc + 5 } ∧
    exec (.jgt addr) s = .next { s with pc := if g then addr else s.pc + 5 } ∧
    exec (.jge addr) s = .next { s with pc := if g || e then addr else s.pc + 5 } := by
  obtain ⟨heq, hne, hlt, hle, hgt, hge⟩ := jumpRules.1 s addr
  refine ⟨?_, ?_, ?_, ?_, ?_, ?_⟩
  · rw [heq, he]
  · rw [hne, f64Ne, he]
  · rw [hlt, hl]
  · rw [hle, f64Le, hl, he]
  · rw [hgt, hg]
  · rw [hge, f64Le, hg, he']

/-- Settles O33: of two values that are no NaNs exactly one of the three relations holds; a NaN has none of them. -/
theorem jumpOutcomeTable : Obligations.JumpOutcomeTable := by
  intro s addr
  refine ⟨?_, fun h => ?_, fun h => ?_, fun h => ?_, fun h => ?_⟩
  · by_cases hnan : isNaN s.r1 = true ∨ isNaN s.r2 = true
    · exact .inr (.inr (.inr hnan))
    · obtain ⟨ha, hb⟩ := not_nan_iff.1 hnan
      obtain ⟨-, ⟨h, -⟩ | ⟨-, h, -⟩ | ⟨-, -, h⟩⟩ := compare_cases ha hb
      · exact .inl h
      · exact .inr (.inl h)
      · exact .inr (.inr (.inl h))
  · obtain ⟨ha, hb⟩ := not_nan_of_f64Eq h
    obtain ⟨hcomm, hcase⟩ := compare_cases ha hb
    obtain ⟨hl, hg⟩ : f64Lt s.r1 s.r2 = false ∧ f64Lt s.r2 s.r1 = false := by simpa [h] using hcase
    exact exec_jumps s addr h (hcomm.trans h) hl hg
  · obtain ⟨ha, hb⟩ := not_nan_of_f64Lt h
    obtain ⟨hcomm, hcase⟩ := compare_cases ha hb
    obtain ⟨he, hg⟩ : f64Eq s.r1 s.r2 = false ∧ f64Lt s.r2 s.r1 = false := by simpa [h] using hcase
    exact exec_jumps s addr he (hcomm.trans he) h hg
  · obtain ⟨hb, ha⟩ := not_nan_of_f64Lt h
    obtain ⟨hcomm, hcase⟩ := compare_cases ha hb
    obtain ⟨he, hl⟩ : f64Eq s.r1 s.r2 = false ∧ f64Lt s.r1 s.r2 = false := by simpa [h] using hcase
    exact exec_jumps s addr he (hcomm.trans he) hl h
  · exact exec_jumps s addr (f64Eq_of_nan h) (f64Eq_of_nan h.symm) (f64Lt_of_nan h) (f64Lt_of_nan h.symm)

end Sys2Proof.Machine
end

/-! SUPPORT. The proofs of the statements of spec/43_arithmetic on the four operations: rounding (R84), the special cases (R85
to R87), and the NaNs (R88). -/

/-! ## What rounding gives (R84) -/

section
namespace Sys2Proof.Machine

/-- The low 63 bits of the pattern that `n / d` units round to. -/
def roundMag (n d : Nat) : Nat :=
  min (((n / d).log2 - 52) * 2 ^ 52 + roundHalfEven n (d * 2 ^ ((n / d).log2 - 52))) infMag

theorem roundUnits_eq (neg : Bool) (n d : Nat) : roundUnits neg n d = ofSignMag neg (roundMag n d) := rfl

theorem roundMag_le (n d : Nat) : roundMag n d ≤ infMag := Nat.min_le_right _ _

theorem roundMag_lt (n d : Nat) : roundMag n d < 2 ^ 63 := (roundMag_le n d).trans_lt infMag_lt

theorem signBit_roundUnits (neg : Bool) (n d : Nat) : signBit (roundUnits neg n d) = neg :=
  signBit_ofSignMag neg (roundMag_lt n d)

theorem magOf_roundUnits (neg : Bool) (n d : Nat) : magOf (roundUnits neg n d) = roundMag n d :=
  magOf_ofSignMag neg (roundMag_lt n d)

/-- Rounding gives a finite value or an infinity, never a NaN. -/
theorem isNaN_roundUnits (neg : Bool) (n d : Nat) : isNaN (roundUnits neg n d) = false := by
  rw [← Bool.not_eq_true, isNaN_iff, magOf_roundUnits, not_lt]
  exact roundMag_le n d

theorem roundHalfEven_mul_self (m : Nat) {d : Nat} (hd : 0 < d) : roundHalfEven (m * d) d = m := by
  simp [roundHalfEven, Nat.mul_mod_left, Nat.mul_div_cancel m hd, hd]

theorem roundMag_zero (d : Nat) : roundMag 0 d = 0 := by
  simp [roundMag, roundHalfEven]

/-- A magnitude as the rounding builds it: a binade and a significand. -/
theorem exists_binade (mag : Nat) : ∃ k m, mag = k * 2 ^ 52 + m ∧ m < 2 ^ 53 ∧ (k = 0 ∨ 2 ^ 52 ≤ m) := by
  rcases Nat.lt_or_ge mag (2 ^ 52) with h | h
  · exact ⟨0, mag, by omega, by omega, .inl rfl⟩
  · exact ⟨mag / 2 ^ 52 - 1, mag % 2 ^ 52 + 2 ^ 52, by omega, by omega, .inr (by omega)⟩

/-- The binade of a significand of at most 53 bits, scaled. -/
theorem log2_scaled {k m : Nat} (hm : m < 2 ^ 53) (hk : k = 0 ∨ 2 ^ 52 ≤ m) : (m * 2 ^ k).log2 - 52 = k := by
  rcases Nat.eq_zero_or_pos m with rfl | hpos
  · obtain rfl : k = 0 := by omega
    decide
  · have hne : m * 2 ^ k ≠ 0 := (Nat.mul_pos hpos (Nat.two_pow_pos k)).ne'
    have hup : (m * 2 ^ k).log2 < 53 + k := by
      rw [Nat.log2_lt hne, pow_add]
      exact Nat.mul_lt_mul_of_pos_right hm (Nat.two_pow_pos k)
    obtain rfl | hlow := hk
    · omega
    · have hdown : 52 + k ≤ (m * 2 ^ k).log2 := by
        rw [Nat.le_log2 hne, pow_add]
        exact Nat.mul_le_mul_right _ hlow
      omega

/-- A value that is a pattern's rounds to that pattern. -/
theorem roundMag_unitsOf {mag : Nat} (h : mag < infMag) : roundMag (unitsOf mag) 1 = mag := by
  obtain ⟨k, m, rfl, hm, hk⟩ := exists_binade mag
  rw [roundMag, unitsOf_round hm.le hk, Nat.div_one, log2_scaled hm hk, Nat.one_mul,
    roundHalfEven_mul_self m (Nat.two_pow_pos k), Nat.min_eq_left h.le]

theorem roundUnits_of_finite {v : F64} (h : isFinite v = true) : roundUnits (signBit v) (unitsOf (magOf v)) 1 = v := by
  rw [roundUnits_eq, roundMag_unitsOf ((isFinite_iff v).1 h), ofSignMag_eq]

end Sys2Proof.Machine
end

/-! ## The infinities and the zeros -/

section
namespace Sys2Proof.Machine

theorem signBit_infinity (neg : Bool) : signBit (infinity neg) = neg := signBit_ofSignMag neg infMag_lt

theorem isInf_infinity (neg : Bool) : isInf (infinity neg) = true := by
  rw [isInf_iff, infinity, magOf_ofSignMag neg infMag_lt]

theorem infinity_signBit {v : F64} (h : isInf v = true) : infinity (signBit v) = v := by
  rw [infinity, ← (isInf_iff v).1 h, ofSignMag_eq]

theorem signBit_zero (neg : Bool) : signBit (zero neg) = neg := signBit_ofSignMag neg (by decide)

theorem isZero_zero (neg : Bool) : isZero (zero neg) = true := by
  rw [isZero_iff, zero, magOf_ofSignMag neg (by decide)]

theorem isNaN_infinity (neg : Bool) : isNaN (infinity neg) = false := isNaN_of_isInf (isInf_infinity neg)

theorem isNaN_zero (neg : Bool) : isNaN (zero neg) = false := isNaN_of_isFinite (isFinite_of_isZero (isZero_zero neg))

theorem zero_eq (neg : Bool) : zero neg = if neg then 0x8000000000000000 else 0x0000000000000000 := by
  cases neg <;> decide

theorem unitsOf_magOf_eq_zero_iff (v : F64) : unitsOf (magOf v) = 0 ↔ isZero v = true := by
  rw [unitsOf_eq_zero_iff, isZero_iff]

end Sys2Proof.Machine
end

/-! ## The operations, by the classes of the two operands -/

section
namespace Sys2Proof.Machine

variable {a b : F64}

/-! ### Addition and subtraction -/

theorem f64Add_of_nan (h : isNaN a = true ∨ isNaN b = true) : f64Add a b = nanResult .add a b := by
  obtain h | h := h
  · delta f64Add
    rw [classify_of_nan h]
  · delta f64Add
    rw [classify_of_nan h]
    cases classify a <;> rfl

theorem f64Add_of_inf_inf (ha : isInf a = true) (hb : isInf b = true) :
    f64Add a b = if signBit a = signBit b then infinity (signBit a) else nanResult .add a b := by
  delta f64Add
  rw [classify_of_inf ha, classify_of_inf hb]

theorem f64Add_of_inf_finite (ha : isInf a = true) (hb : isFinite b = true) : f64Add a b = a := by
  delta f64Add
  rw [classify_of_inf ha, classify_of_finite hb]
  exact infinity_signBit ha

theorem f64Add_of_finite_inf (ha : isFinite a = true) (hb : isInf b = true) : f64Add a b = b := by
  delta f64Add
  rw [classify_of_finite ha, classify_of_inf hb]
  exact infinity_signBit hb

/-- The sum of two finite values: the exact sum of their units, rounded once. -/
theorem f64Add_of_finite (ha : isFinite a = true) (hb : isFinite b = true) :
    f64Add a b = if signedUnits a + signedUnits b = 0 then zero (signBit a && signBit b)
      else roundUnits (decide (signedUnits a + signedUnits b < 0)) (signedUnits a + signedUnits b).natAbs 1 := by
  delta f64Add
  rw [classify_of_finite ha, classify_of_finite hb]
  rfl

theorem f64Sub_of_nan (h : isNaN b = true) : f64Sub a b = nanResult .sub a b := if_pos h

theorem f64Sub_of_not_nan (h : isNaN b = false) : f64Sub a b = f64Add a (f64Neg b) := if_neg (by simp [h])

/-! ### Multiplication -/

theorem f64Mul_of_nan (h : isNaN a = true ∨ isNaN b = true) : f64Mul a b = nanResult .mul a b := by
  obtain h | h := h
  · delta f64Mul
    rw [classify_of_nan h]
  · delta f64Mul
    rw [classify_of_nan h]
    cases classify a <;> rfl

theorem f64Mul_of_inf_inf (ha : isInf a = true) (hb : isInf b = true) :
    f64Mul a b = infinity (signBit a ^^ signBit b) := by
  delta f64Mul
  rw [classify_of_inf ha, classify_of_inf hb]

theorem f64Mul_of_inf_finite (ha : isInf a = true) (hb : isFinite b = true) :
    f64Mul a b = if isZero b then nanResult .mul a b else infinity (signBit a ^^ signBit b) := by
  delta f64Mul
  rw [classify_of_inf ha, classify_of_finite hb]
  simp only [unitsOf_magOf_eq_zero_iff]

theorem f64Mul_of_finite_inf (ha : isFinite a = true) (hb : isInf b = true) :
    f64Mul a b = if isZero a then nanResult .mul a b else infinity (signBit a ^^ signBit b) := by
  delta f64Mul
  rw [classify_of_finite ha, classify_of_inf hb]
  simp only [unitsOf_magOf_eq_zero_iff]

theorem f64Mul_of_finite (ha : isFinite a = true) (hb : isFinite b = true) :
    f64Mul a b = roundUnits (signBit a ^^ signBit b) (unitsOf (magOf a) * unitsOf (magOf b)) (2 ^ 1074) := by
  delta f64Mul
  rw [classify_of_finite ha, classify_of_finite hb]

/-! ### Division by a divisor that is not zero -/

theorem f64Div_of_nan (h : isNaN a = true ∨ isNaN b = true) : f64Div a b = nanResult .div a b := by
  obtain h | h := h
  · delta f64Div
    rw [classify_of_nan h]
  · delta f64Div
    rw [classify_of_nan h]
    cases classify a <;> rfl

theorem f64Div_of_inf_inf (ha : isInf a = true) (hb : isInf b = true) : f64Div a b = nanResult .div a b := by
  delta f64Div
  rw [classify_of_inf ha, classify_of_inf hb]

theorem f64Div_of_finite_inf (ha : isFinite a = true) (hb : isInf b = true) :
    f64Div a b = zero (signBit a ^^ signBit b) := by
  delta f64Div
  rw [classify_of_finite ha, classify_of_inf hb]

theorem unitsOf_magOf_ne_zero {v : F64} (h : isZero v = false) : unitsOf (magOf v) ≠ 0 := by
  rw [ne_eq, unitsOf_magOf_eq_zero_iff, h]
  nofun

theorem f64Div_of_inf_finite (ha : isInf a = true) (hb : isFinite b = true) (hz : isZero b = false) :
    f64Div a b = infinity (signBit a ^^ signBit b) := by
  delta f64Div
  rw [classify_of_inf ha, classify_of_finite hb]
  exact if_neg (unitsOf_magOf_ne_zero hz)

theorem f64Div_of_finite (ha : isFinite a = true) (hb : isFinite b = true) (hz : isZero b = false) :
    f64Div a b = roundUnits (signBit a ^^ signBit b) (unitsOf (magOf a) * 2 ^ 1074) (unitsOf (magOf b)) := by
  delta f64Div
  rw [classify_of_finite ha, classify_of_finite hb]
  exact if_neg (unitsOf_magOf_ne_zero hz)

end Sys2Proof.Machine
end

/-! ## The operations round the exact result (R84) -/

section
namespace Sys2Proof.Machine

theorem signed_natAbs (z : Int) : signed (decide (z < 0)) z.natAbs = z := by
  rcases lt_or_ge z 0 with h | h
  · rw [decide_eq_true h, signed, if_pos rfl]
    omega
  · rw [decide_eq_false h.not_gt, signed, if_neg Bool.false_ne_true]
    omega

/-- A whole number of units, with its sign, rounds as the rule says. -/
theorem roundsTo_of_int {z : Int} (hz : z ≠ 0) :
    RoundsTo ((z : ℚ) / 2 ^ 1074) (roundUnits (decide (z < 0)) z.natAbs 1) := by
  have hexact : (if decide (z < 0) then -1 else 1) * ((z.natAbs : ℚ) / (1 : ℕ) / 2 ^ 1074) = (z : ℚ) / 2 ^ 1074 := by
    rw [Nat.cast_one, div_one, ← mul_div_assoc, ← signed_cast, signed_natAbs]
  rw [← hexact]
  exact roundUnits_roundsTo _ Nat.one_pos (Int.natAbs_pos.2 hz)

/-- The value of a finite pattern as a sign and a magnitude. -/
theorem value_eq_sign_mul (v : F64) :
    value v = (if signBit v then -1 else 1) * ((unitsOf (magOf v) : ℚ) / 2 ^ 1074) := by
  rw [value_eq_signedUnits, signedUnits, signed_cast, mul_div_assoc]

theorem sign_mul_sign (s t : Bool) :
    ((if s then -1 else 1) * (if t then -1 else 1) : ℚ) = if s ^^ t then -1 else 1 := by
  cases s <;> cases t <;> simp

theorem sign_div_sign (s t : Bool) :
    ((if s then -1 else 1) / (if t then -1 else 1) : ℚ) = if s ^^ t then -1 else 1 := by
  cases s <;> cases t <;> simp

theorem f64Add_roundsTo {a b : F64} (ha : isFinite a = true) (hb : isFinite b = true) (h : value a + value b ≠ 0) :
    RoundsTo (value a + value b) (f64Add a b) := by
  have hsum : value a + value b = ((signedUnits a + signedUnits b : ℤ) : ℚ) / 2 ^ 1074 := by
    rw [value_eq_signedUnits, value_eq_signedUnits, Int.cast_add, add_div]
  have hne : signedUnits a + signedUnits b ≠ 0 := fun h0 => h (by rw [hsum, h0, Int.cast_zero, zero_div])
  rw [f64Add_of_finite ha hb, if_neg hne, hsum]
  exact roundsTo_of_int hne

theorem f64Sub_roundsTo {a b : F64} (ha : isFinite a = true) (hb : isFinite b = true) (h : value a - value b ≠ 0) :
    RoundsTo (value a - value b) (f64Sub a b) := by
  rw [sub_eq_add_neg, ← value_f64Neg] at h ⊢
  rw [f64Sub_of_not_nan (isNaN_of_isFinite hb)]
  exact f64Add_roundsTo ha ((isFinite_f64Neg b).trans hb) h

theorem unitsOf_magOf_pos {v : F64} (h : value v ≠ 0) : 0 < unitsOf (magOf v) := by
  rw [ne_eq, value_eq_zero_iff, ← unitsOf_magOf_eq_zero_iff] at h
  exact Nat.pos_of_ne_zero h

theorem f64Mul_roundsTo {a b : F64} (ha : isFinite a = true) (hb : isFinite b = true) (h : value a * value b ≠ 0) :
    RoundsTo (value a * value b) (f64Mul a b) := by
  have hpos := Nat.mul_pos (unitsOf_magOf_pos (left_ne_zero_of_mul h)) (unitsOf_magOf_pos (right_ne_zero_of_mul h))
  have hexact : value a * value b = (if signBit a ^^ signBit b then -1 else 1) *
      (((unitsOf (magOf a) * unitsOf (magOf b) : ℕ) : ℚ) / ((2 ^ 1074 : ℕ) : ℚ) / 2 ^ 1074) := by
    rw [value_eq_sign_mul, value_eq_sign_mul, ← sign_mul_sign, Nat.cast_mul, Nat.cast_pow, Nat.cast_ofNat]
    generalize (2 : ℚ) ^ 1074 = U
    ring
  rw [f64Mul_of_finite ha hb, hexact]
  exact roundUnits_roundsTo _ (by positivity) hpos

theorem f64Div_roundsTo {a b : F64} (ha : isFinite a = true) (hb : isFinite b = true) (ha0 : value a ≠ 0)
    (hb0 : value b ≠ 0) : RoundsTo (value a / value b) (f64Div a b) := by
  have hexact : value a / value b = (if signBit a ^^ signBit b then -1 else 1) *
      (((unitsOf (magOf a) * 2 ^ 1074 : ℕ) : ℚ) / (unitsOf (magOf b) : ℚ) / 2 ^ 1074) := by
    have hb' : (unitsOf (magOf b) : ℚ) ≠ 0 := Nat.cast_ne_zero.2 (unitsOf_magOf_pos hb0).ne'
    have hunit := two_pow_unit_ne_zero
    rw [value_eq_sign_mul, value_eq_sign_mul, mul_div_mul_comm, sign_div_sign, Nat.cast_mul, Nat.cast_pow, Nat.cast_ofNat]
    generalize (2 : ℚ) ^ 1074 = U at hunit ⊢
    field_simp
  have hz : isZero b = false := by simpa [value_eq_zero_iff] using hb0
  rw [f64Div_of_finite ha hb hz, hexact]
  exact roundUnits_roundsTo _ (unitsOf_magOf_pos hb0) (Nat.mul_pos (unitsOf_magOf_pos ha0) (by positivity))

/-- Settles O42: each operation rounds the exact number of units of its result once. -/
theorem aluRoundsToNearestEven : Obligations.AluRoundsToNearestEven := fun _ _ ha hb =>
  ⟨f64Add_roundsTo ha hb, f64Sub_roundsTo ha hb, f64Mul_roundsTo ha hb, f64Div_roundsTo ha hb⟩

end Sys2Proof.Machine
end

/-! ## The special cases of addition and subtraction (R85) -/

section
namespace Sys2Proof.Machine

variable {a b : F64}

/-- An exact sum of 0 gives a zero, negative where both operands are. -/
theorem f64Add_of_sum_zero (ha : isFinite a = true) (hb : isFinite b = true) (h : signedUnits a + signedUnits b = 0) :
    f64Add a b = zero (signBit a && signBit b) := by
  rw [f64Add_of_finite ha hb, if_pos h]

theorem natAbs_signedUnits (v : F64) : (signedUnits v).natAbs = unitsOf (magOf v) := by
  rw [signedUnits, signed]
  split <;> omega

theorem signedUnits_neg_iff {v : F64} (h : isZero v = false) : signedUnits v < 0 ↔ signBit v = true := by
  have hpos := Nat.pos_of_ne_zero (unitsOf_magOf_ne_zero h)
  rw [signedUnits, signed]
  cases signBit v
  · simp
  · simpa using hpos

/-- An exact sum that is the value of one pattern, not a zero, gives that pattern. -/
theorem f64Add_of_sum_eq {v : F64} (ha : isFinite a = true) (hb : isFinite b = true) (hv : isFinite v = true)
    (hz : isZero v = false) (h : signedUnits a + signedUnits b = signedUnits v) : f64Add a b = v := by
  have hne : signedUnits v ≠ 0 := fun h0 => nomatch hz.symm.trans ((signedUnits_eq_zero_iff v).1 h0)
  have hsign : decide (signedUnits v < 0) = signBit v := by
    rw [Bool.eq_iff_iff, decide_eq_true_iff, signedUnits_neg_iff hz]
  rw [f64Add_of_finite ha hb, h, if_neg hne, hsign, natAbs_signedUnits, roundUnits_of_finite hv]

/-- Two values that cancel have signs that differ, unless they are zeros. -/
theorem signBit_ne_of_cancel (hz : isZero a = false) (h : signedUnits a + signedUnits b = 0) :
    (signBit a && signBit b) = false := by
  have hpos := Nat.pos_of_ne_zero (unitsOf_magOf_ne_zero hz)
  rw [signedUnits, signedUnits, signed, signed] at h
  cases hsa : signBit a <;> cases hsb : signBit b <;> simp [hsa, hsb] at h ⊢
  omega

theorem signedUnits_f64Neg (v : F64) : signedUnits (f64Neg v) = -signedUnits v := by
  rw [signedUnits, signBit_f64Neg, magOf_f64Neg, signed_not, signedUnits]

/-- A value less itself is +0.0. -/
theorem f64Sub_self (ha : isFinite a = true) : f64Sub a a = 0x0000000000000000 := by
  rw [f64Sub_of_not_nan (isNaN_of_isFinite ha),
    f64Add_of_sum_zero ha ((isFinite_f64Neg a).trans ha) (by rw [signedUnits_f64Neg, add_neg_cancel]),
    signBit_f64Neg, Bool.and_not_self, zero_eq]
  rfl

/-- Settles O43: the infinities are decided by the classes, and the finite cases by the exact sum. -/
theorem addSubSpecialCases : Obligations.AddSubSpecialCases := by
  intro a b _ hb
  refine ⟨f64Sub_of_not_nan hb, fun hia hib hs => ?_, fun hia hib hs => ?_, fun hia hfb => ?_,
    fun hfa hfb hza hzb hsum => ?_, fun hza hzb => ?_, fun hfa hza hzb => ?_, f64Sub_self⟩
  · rw [f64Add_of_inf_inf hia hib, if_pos hs, infinity_signBit hia]
  · rw [f64Add_of_inf_inf hia hib, if_neg hs]
    exact isNaN_nanResult ..
  · exact ⟨f64Add_of_inf_finite hia hfb, f64Add_of_finite_inf hfb hia⟩
  · have hcancel : signedUnits a + signedUnits b = 0 := by
      rw [← eq_neg_iff_add_eq_zero, ← value_f64Neg, value_eq_value_iff, signedUnits_f64Neg] at hsum
      rw [hsum, neg_add_cancel]
    rw [f64Add_of_sum_zero hfa hfb hcancel, signBit_ne_of_cancel hza hcancel, zero_eq]
    rfl
  · have ha0 := (signedUnits_eq_zero_iff a).2 hza
    have hb0 := (signedUnits_eq_zero_iff b).2 hzb
    rw [f64Add_of_sum_zero (isFinite_of_isZero hza) (isFinite_of_isZero hzb) (by rw [ha0, hb0, add_zero]), zero_eq]
  · have hb0 := (signedUnits_eq_zero_iff b).2 hzb
    have hfb := isFinite_of_isZero hzb
    exact ⟨f64Add_of_sum_eq hfa hfb hfa hza (by rw [hb0, add_zero]),
      f64Add_of_sum_eq hfb hfa hfa hza (by rw [hb0, zero_add])⟩

end Sys2Proof.Machine
end

/-! ## The special cases of multiplication and division (R86, R87) -/

section
namespace Sys2Proof.Machine

theorem isZero_roundUnits_zero (neg : Bool) (d : Nat) : isZero (roundUnits neg 0 d) = true := by
  rw [isZero_iff, magOf_roundUnits, roundMag_zero]

/-- Settles O44: an infinity times a zero is invalid, and every other product has the product of the signs. -/
theorem mulSpecialCases : Obligations.MulSpecialCases := by
  intro a b ha hb
  obtain hia | hfa := inf_or_finite ha <;> obtain hib | hfb := inf_or_finite hb
  · simp [f64Mul_of_inf_inf hia hib, hia, hib, isZero_of_isInf, isFinite_of_isInf, signBit_infinity, isInf_infinity]
  · rw [f64Mul_of_inf_finite hia hfb]
    cases isZero b <;>
      simp [hia, hfb, isZero_of_isInf, isFinite_of_isInf, isInf_of_isFinite, signBit_infinity, isInf_infinity,
        isNaN_nanResult]
  · rw [f64Mul_of_finite_inf hfa hib]
    cases isZero a <;>
      simp [hfa, hib, isZero_of_isInf, isFinite_of_isInf, isInf_of_isFinite, signBit_infinity, isInf_infinity,
        isNaN_nanResult]
  · rw [f64Mul_of_finite hfa hfb, signBit_roundUnits]
    simp only [isInf_of_isFinite hfa, isInf_of_isFinite hfb, hfa, hfb, Bool.false_eq_true, false_and, and_false, or_self,
      false_imp_iff, true_and, and_true, imp_true_iff]
    rintro (hz | hz)
    · rw [(unitsOf_magOf_eq_zero_iff a).2 hz, Nat.zero_mul]
      exact isZero_roundUnits_zero ..
    · rw [(unitsOf_magOf_eq_zero_iff b).2 hz, Nat.mul_zero]
      exact isZero_roundUnits_zero ..

/-- Settles O45: an infinity by an infinity is invalid, and every other quotient has the product of the signs. -/
theorem divSpecialCases : Obligations.DivSpecialCases := by
  intro a b ha hb hz
  obtain hia | hfa := inf_or_finite ha <;> obtain hib | hfb := inf_or_finite hb
  · simp [f64Div_of_inf_inf hia hib, hia, hib, isZero_of_isInf, isFinite_of_isInf, isNaN_nanResult]
  · simp [f64Div_of_inf_finite hia hfb hz, hia, hfb, isZero_of_isInf, isFinite_of_isInf, isInf_of_isFinite,
      signBit_infinity, isInf_infinity]
  · simp [f64Div_of_finite_inf hfa hib, hfa, hib, isFinite_of_isInf, isInf_of_isFinite, signBit_zero, isZero_zero]
  · rw [f64Div_of_finite hfa hfb hz, signBit_roundUnits]
    simp only [isInf_of_isFinite hfa, isInf_of_isFinite hfb, hfa, hfb, Bool.false_eq_true, and_false, false_imp_iff,
      true_and, and_true, imp_true_iff, not_false_eq_true]
    intro hza
    rw [(unitsOf_magOf_eq_zero_iff a).2 hza, Nat.zero_mul]
    exact isZero_roundUnits_zero ..

end Sys2Proof.Machine
end

/-! ## When a result is a NaN (R88) -/

section
namespace Sys2Proof.Machine

theorem isNaN_f64Add_iff (a b : F64) :
    isNaN (f64Add a b) = true ↔ isNaN a = true ∨ isNaN b = true ∨
      (isInf a = true ∧ isInf b = true ∧ signBit a ≠ signBit b) := by
  by_cases hnan : isNaN a = true ∨ isNaN b = true
  · rw [f64Add_of_nan hnan]
    exact iff_of_true (isNaN_nanResult ..) (hnan.imp_right .inl)
  · obtain ⟨ha, hb⟩ := not_nan_iff.1 hnan
    obtain hia | hfa := inf_or_finite ha <;> obtain hib | hfb := inf_or_finite hb
    · rw [f64Add_of_inf_inf hia hib]
      by_cases hs : signBit a = signBit b <;> simp [ha, hb, hia, hib, hs, isNaN_infinity, isNaN_nanResult]
    · simp [f64Add_of_inf_finite hia hfb, ha, hb, isInf_of_isFinite hfb]
    · simp [f64Add_of_finite_inf hfa hib, ha, hb, isInf_of_isFinite hfa]
    · rw [f64Add_of_finite hfa hfb]
      split <;> simp [ha, hb, isInf_of_isFinite hfa, isNaN_zero, isNaN_roundUnits]

theorem isNaN_f64Sub_iff (a b : F64) :
    isNaN (f64Sub a b) = true ↔ isNaN a = true ∨ isNaN b = true ∨
      (isInf a = true ∧ isInf b = true ∧ signBit a = signBit b) := by
  cases hb : isNaN b with
  | true =>
    rw [f64Sub_of_nan hb]
    exact iff_of_true (isNaN_nanResult ..) (.inr (.inl rfl))
  | false =>
    have hsign : signBit a ≠ !signBit b ↔ signBit a = signBit b := by cases signBit a <;> cases signBit b <;> decide
    rw [f64Sub_of_not_nan hb, isNaN_f64Add_iff, isNaN_f64Neg, isInf_f64Neg, signBit_f64Neg, hsign, hb]

theorem isNaN_f64Mul_iff (a b : F64) :
    isNaN (f64Mul a b) = true ↔ isNaN a = true ∨ isNaN b = true ∨
      (isInf a = true ∧ isZero b = true) ∨ (isZero a = true ∧ isInf b = true) := by
  by_cases hnan : isNaN a = true ∨ isNaN b = true
  · rw [f64Mul_of_nan hnan]
    exact iff_of_true (isNaN_nanResult ..) (hnan.imp_right .inl)
  · obtain ⟨ha, hb⟩ := not_nan_iff.1 hnan
    obtain hia | hfa := inf_or_finite ha <;> obtain hib | hfb := inf_or_finite hb
    · simp [f64Mul_of_inf_inf hia hib, ha, hb, hia, hib, isZero_of_isInf, isNaN_infinity]
    · rw [f64Mul_of_inf_finite hia hfb]
      cases isZero b <;> simp [ha, hb, hia, isInf_of_isFinite hfb, isNaN_infinity, isNaN_nanResult]
    · rw [f64Mul_of_finite_inf hfa hib]
      cases isZero a <;> simp [ha, hb, hib, isInf_of_isFinite hfa, isNaN_infinity, isNaN_nanResult]
    · rw [f64Mul_of_finite hfa hfb, isNaN_roundUnits]
      simp [ha, hb, isInf_of_isFinite hfa, isInf_of_isFinite hfb]

theorem isNaN_f64Div_iff {a b : F64} (hz : isZero b = false) :
    isNaN (f64Div a b) = true ↔ isNaN a = true ∨ isNaN b = true ∨ (isInf a = true ∧ isInf b = true) := by
  by_cases hnan : isNaN a = true ∨ isNaN b = true
  · rw [f64Div_of_nan hnan]
    exact iff_of_true (isNaN_nanResult ..) (hnan.imp_right .inl)
  · obtain ⟨ha, hb⟩ := not_nan_iff.1 hnan
    obtain hia | hfa := inf_or_finite ha <;> obtain hib | hfb := inf_or_finite hb
    · simp [f64Div_of_inf_inf hia hib, hia, hib, isNaN_nanResult]
    · simp [f64Div_of_inf_finite hia hfb hz, ha, hb, isInf_of_isFinite hfb, isNaN_infinity]
    · simp [f64Div_of_finite_inf hfa hib, ha, hb, isInf_of_isFinite hfa, isNaN_zero]
    · rw [f64Div_of_finite hfa hfb hz, isNaN_roundUnits]
      simp [ha, hb, isInf_of_isFinite hfa]

/-- Settles O46: each operation gives a NaN by its NaN clauses alone; rounding, zeros and infinities are none. -/
theorem nanResults : Obligations.NanResults := fun a b =>
  ⟨isNaN_f64Add_iff a b, isNaN_f64Sub_iff a b, isNaN_f64Mul_iff a b, isNaN_f64Div_iff⟩

end Sys2Proof.Machine
end

/-! SUPPORT. The proof of the statement of spec/45_print on the text of a finite value (R108). -/

/-! ## Digits -/

section
namespace Sys2Proof.Machine

theorem toNat_digitChar {d : Nat} (h : d < 10) : (digitChar d).toNat = 48 + d := by
  have hall : ∀ d : Fin 10, (digitChar d).toNat = 48 + d := by decide
  exact hall ⟨d, h⟩

theorem isDigitChar_digitChar {d : Nat} (h : d < 10) : isDigitChar (digitChar d) = true := by
  simp only [isDigitChar, toNat_digitChar h, Bool.and_eq_true, decide_eq_true_eq]
  omega

/-- A digit written after a number. -/
theorem digitsValue_append_digit (cs : List Char) {d : Nat} (h : d < 10) :
    digitsValue (cs ++ [digitChar d]) = 10 * digitsValue cs + d := by
  simp only [digitsValue, List.foldl_append, List.foldl_cons, List.foldl_nil, toNat_digitChar h, Nat.add_sub_cancel_left]

/-- `ds` is the decimal form of `n`: digits alone, at least one, no leading zero. -/
def IsDecimal (n : Nat) (ds : List Char) : Prop :=
  ds ≠ [] ∧ (∀ c ∈ ds, isDigitChar c = true) ∧ digitsValue ds = n ∧ (ds.head? = some '0' → ds = ['0'])

theorem isDecimal_digit {d : Nat} (h : d < 10) : IsDecimal d [digitChar d] := by
  have hvalue : digitsValue [digitChar d] = d := by simpa [digitsValue] using digitsValue_append_digit [] h
  exact ⟨List.cons_ne_nil _ _, by simpa using isDigitChar_digitChar h, hvalue, by simp⟩

/-- A digit after the decimal form of a number that is not 0. -/
theorem isDecimal_append_digit {n d : Nat} {ds : List Char} (hds : IsDecimal n ds) (hn : n ≠ 0) (hd : d < 10) :
    IsDecimal (10 * n + d) (ds ++ [digitChar d]) := by
  obtain ⟨hne, hdigits, hvalue, hlead⟩ := hds
  refine ⟨by simp, fun c hc => ?_, by rw [digitsValue_append_digit ds hd, hvalue], fun h => ?_⟩
  · obtain hc | hc := List.mem_append.1 hc
    · exact hdigits c hc
    · rw [List.mem_singleton.1 hc]
      exact isDigitChar_digitChar hd
  · rw [List.head?_append_of_ne_nil _ hne] at h
    have hzero : n = 0 := by rw [← hvalue, hlead h]; rfl
    exact absurd hzero hn

/-- With fuel for its digits, `digitsFrom` writes the decimal form of the number before what it is given. -/
theorem digitsFrom_isDecimal (fuel n : Nat) (acc : List Char) (h : n < 10 ^ (fuel + 1)) :
    ∃ ds, digitsFrom (fuel + 1) n acc = ds ++ acc ∧ IsDecimal n ds := by
  induction fuel generalizing n acc with
  | zero =>
    have hn : n < 10 := by omega
    exact ⟨[digitChar n], if_pos hn, isDecimal_digit hn⟩
  | succ fuel ih =>
    rcases Nat.lt_or_ge n 10 with hn | hn
    · exact ⟨[digitChar n], if_pos hn, isDecimal_digit hn⟩
    · have hdiv : n / 10 < 10 ^ (fuel + 1) := by
        rw [Nat.div_lt_iff_lt_mul (by decide), ← pow_succ]
        exact h
      obtain ⟨ds, hfrom, hds⟩ := ih (n / 10) (digitChar (n % 10) :: acc) hdiv
      refine ⟨ds ++ [digitChar (n % 10)], ?_, ?_⟩
      · rw [digitsFrom, if_neg (by omega), hfrom, List.append_assoc, List.singleton_append]
      · have happend := isDecimal_append_digit hds (by omega) (Nat.mod_lt n (by decide : 0 < 10))
        rwa [Nat.div_add_mod] at happend

/-- A number has no more decimal digits than binary ones. -/
theorem intDigits_isDecimal (n : Nat) : IsDecimal n (intDigits n) := by
  have hfuel : n < 10 ^ (n.log2 + 1) :=
    Nat.lt_log2_self.trans_le (Nat.pow_le_pow_left (by decide) _)
  obtain ⟨ds, hfrom, hds⟩ := digitsFrom_isDecimal n.log2 n [] hfuel
  rwa [intDigits, hfrom, List.append_nil]

theorem fracDigits_digits (f : Nat) : ∀ c ∈ fracDigits f, isDigitChar c = true := by
  have hdigit : ∀ m : Nat, isDigitChar (digitChar (m % 10)) = true := fun m =>
    isDigitChar_digitChar (Nat.mod_lt m (by decide))
  simp [fracDigits, hdigit]

/-- Six digits after a number are its millionths. -/
theorem digitsValue_append_fracDigits (cs : List Char) {f : Nat} (h : f < 10 ^ 6) :
    digitsValue (cs ++ fracDigits f) = digitsValue cs * 10 ^ 6 + f := by
  have hmod : ∀ m : Nat, m % 10 < 10 := fun m => Nat.mod_lt m (by decide)
  simp only [digitsValue, fracDigits, List.foldl_append, List.foldl_cons, List.foldl_nil, toNat_digitChar (hmod _),
    Nat.add_sub_cancel_left]
  omega

end Sys2Proof.Machine
end

/-! ## The text of a finite value (R108) -/

section
namespace Sys2Proof.Machine

theorem fmt6_of_finite {v : F64} (h : isFinite v = true) :
    fmt6 v = (if signBit v then ['-'] else []) ++ intDigits (millionths (unitsOf (magOf v)) / 10 ^ 6) ++ ['.'] ++
      fracDigits (millionths (unitsOf (magOf v)) % 10 ^ 6) := by
  delta fmt6
  rw [classify_of_finite h]

theorem abs_value (v : F64) : |value v| = (unitsOf (magOf v) : ℚ) / 2 ^ 1074 := by
  have hnonneg : (0 : ℚ) ≤ (unitsOf (magOf v) : ℚ) / 2 ^ 1074 := div_nonneg (Nat.cast_nonneg _) (le_of_lt two_pow_unit_pos)
  rw [value_eq_sign_mul, abs_mul, abs_of_nonneg hnonneg]
  cases signBit v <;> simp

/-- The millionths of a text are those of the exact value, rounded to the nearest, ties to even. -/
theorem millionths_rounds (v : F64) :
    |(millionths (unitsOf (magOf v)) : ℚ) - |value v| * 10 ^ 6| ≤ 1 / 2 ∧
    (|(millionths (unitsOf (magOf v)) : ℚ) - |value v| * 10 ^ 6| = 1 / 2 → millionths (unitsOf (magOf v)) % 2 = 0) := by
  have hexact : ((unitsOf (magOf v) * 10 ^ 6 : ℕ) : ℚ) / ((2 ^ 1074 : ℕ) : ℚ) = |value v| * 10 ^ 6 := by
    rw [abs_value, Nat.cast_mul, Nat.cast_pow, Nat.cast_pow, Nat.cast_ofNat, Nat.cast_ofNat]
    exact mul_div_right_comm ..
  obtain ⟨hlow, hup, htie⟩ := roundHalfEven_rat (unitsOf (magOf v) * 10 ^ 6) (d := 2 ^ 1074) (by positivity)
  rw [hexact] at hlow hup htie
  refine ⟨abs_le.2 ⟨?_, ?_⟩, fun h => htie ?_⟩
  · rw [millionths]
    linarith
  · rw [millionths]
    linarith
  · rw [abs_sub_comm]
    exact h

/-- Settles O59: the text is the decimal form of the whole part and six digits, together the rounded millionths. -/
theorem textOfAFiniteValue : Obligations.TextOfAFiniteValue := by
  intro v hfinite
  generalize hm : millionths (unitsOf (magOf v)) = m
  obtain ⟨hne, hdigits, hint, hlead⟩ := intDigits_isDecimal (m / 10 ^ 6)
  have hvalue : digitsValue (intDigits (m / 10 ^ 6) ++ fracDigits (m % 10 ^ 6)) = m := by
    rw [digitsValue_append_fracDigits _ (Nat.mod_lt m (by decide)), hint, Nat.div_add_mod']
  obtain ⟨hnear, htie⟩ := millionths_rounds v
  rw [hm] at hnear htie
  refine ⟨intDigits (m / 10 ^ 6), fracDigits (m % 10 ^ 6), ?_, rfl, hne, fun c hc => ?_, hlead, ?_⟩
  · rw [fmt6_of_finite hfinite, hm]
  · exact (List.mem_append.1 hc).elim (hdigits c) (fracDigits_digits _ c)
  · rw [hvalue]
    exact ⟨hnear, htie⟩

end Sys2Proof.Machine
end

/-! SUPPORT. The proof of the statement on the model's tool `withFetchWord` (log entry 6). -/

section
namespace Sys2Proof.Machine

/-- An offset without an entry reads as unlisted. -/
theorem Memory.get_of_notListed {m : Memory} {a : Nat} (h : ∀ p ∈ m, p.1 ≠ a) : Memory.get m a = Memory.unlisted := by
  induction m with
  | nil => rfl
  | cons p m ih =>
    obtain ⟨hp, hm⟩ := List.forall_mem_cons.1 h
    exact (if_neg hp).trans (ih hm)

section
variable {s : State} {bs : List Byte}

/-- Away from the largest length a stream can have, nothing of what is placed is cut off. -/
theorem placeAtPc_stream (h : s.pc.toNat + bs.length < 2 ^ 32) :
    (placeAtPc s bs).stream = placeBytes s.stream s.pc.toNat bs := by
  have hfits : bs.length ≤ Config.maxStreamLen - s.pc.toNat := by
    rw [Config.maxStreamLen]
    omega
  exact congrArg (placeBytes s.stream s.pc.toNat) (List.take_of_length_le hfits)

theorem placeAtPc_streamLen (h : s.pc.toNat + bs.length < 2 ^ 32) :
    (placeAtPc s bs).streamLen.toNat = max s.streamLen.toNat (s.pc.toNat + bs.length) := by
  have hlen := Offset.toNat_lt s.streamLen
  have hmin : min (s.pc.toNat + bs.length) Config.maxStreamLen = s.pc.toNat + bs.length := by
    rw [Config.maxStreamLen]
    omega
  refine (congrArg (fun n => (BitVec.ofNat Config.pcWidth (max s.streamLen.toNat n)).toNat) hmin).trans ?_
  exact toNat_ofNat_of_fits (by omega)

/-- A placed byte is read where it was placed. -/
theorem imemRead_placeAtPc_inside (hs : StreamOk s) (h : s.pc.toNat + bs.length < 2 ^ 32) {k : Nat} (hk : k < bs.length) :
    imemRead (placeAtPc s bs) (s.pc.toNat + k) = bs[k]? := by
  have hlen := placeAtPc_streamLen h
  have hget := List.getElem?_eq_getElem hk
  rw [imemRead_of_lt (by omega), placeAtPc_stream h, get_placeBytes_inside hs.1 hget, hget]

/-- Every byte of the stream outside the placed ones reads as before. -/
theorem imemRead_placeAtPc_outside (h : s.pc.toNat + bs.length < 2 ^ 32) {a : Nat} (ha : a < s.streamLen.toNat)
    (hout : a < s.pc.toNat ∨ s.pc.toNat + bs.length ≤ a) : imemRead (placeAtPc s bs) a = imemRead s a := by
  have hlen := placeAtPc_streamLen h
  rw [imemRead_of_lt (by omega), imemRead_of_lt ha, placeAtPc_stream h, get_placeBytes_outside hout]

/-- The offsets that a longer stream gains below `pc` read 0x00. -/
theorem imemRead_placeAtPc_gap (hs : StreamOk s) (h : s.pc.toNat + bs.length < 2 ^ 32) {a : Nat}
    (ha : s.streamLen.toNat ≤ a) (hpc : a < s.pc.toNat) : imemRead (placeAtPc s bs) a = some 0x00 := by
  have hlen := placeAtPc_streamLen h
  have hgap : Memory.get s.stream a = Memory.unlisted :=
    Memory.get_of_notListed fun p hp => (Nat.lt_of_lt_of_le (hs.2 p hp) ha).ne
  rw [imemRead_of_lt (by omega), placeAtPc_stream h, get_placeBytes_outside (.inl hpc), hgap]
  rfl

theorem streamOk_placeAtPc (hs : StreamOk s) (h : s.pc.toNat + bs.length < 2 ^ 32) : StreamOk (placeAtPc s bs) := by
  rw [StreamOk, placeAtPc_stream h, placeAtPc_streamLen h]
  refine ⟨Memory.wf_placeBytes _ bs hs.1, fun p hp => ?_⟩
  obtain hold | ⟨-, hnew⟩ := mem_placeBytes hp
  · exact lt_max_of_lt_left (hs.2 p hold)
  · exact lt_max_of_lt_right hnew

/-- An instruction whose encoding the placed bytes begin with stands at `pc`. -/
theorem instrAt_placeAtPc (hs : StreamOk s) (h : s.pc.toNat + bs.length < 2 ^ 32) {i : Instr} {rest : List Byte}
    (hdecode : decode bs = .instr i rest) : InstrAt (placeAtPc s bs) i := by
  obtain rfl := eq_encode_of_decode hdecode
  intro k hk
  rw [← encode_length] at hk
  have hin : k < (encode i ++ rest).length := hk.trans_le (by simp)
  exact (imemRead_placeAtPc_inside hs h hin).trans (List.getElem?_append_left hk)

end

theorem exists_decode_of_tableWord {nbits w : Nat} {i : Instr} (h : decodeTableWord nbits w = some i) :
    ∃ rest, decode (tableBytes nbits w) = .instr i rest := by
  delta decodeTableWord at h
  cases hd : decode (tableBytes nbits w) with
  | instr i' rest =>
    rw [hd] at h
    exact ⟨rest, congrArg (DecodeResult.instr · rest) (Option.some.inj h)⟩
  | noOpcode | illegalOpcode _ | truncatedOperand =>
    rw [hd] at h
    exact nomatch h

/-- Settles O60: the bytes of the word are placed at `pc`, where the fetch reads them; nothing else is written. -/
theorem placedWordRuns : Obligations.PlacedWordRuns := by
  intro s nbits w i hs hroom hword
  have hnine := tableBytes_length nbits w
  have hfits : s.pc.toNat + (tableBytes nbits w).length < 2 ^ 32 := by rwa [hnine]
  obtain ⟨rest, hdecode⟩ := exists_decode_of_tableWord hword
  refine ⟨step_of_instrAt rfl (instrAt_placeAtPc hs hfits hdecode), fun k hk => ?_, fun a ha hout => ?_,
    fun a ha hpc => imemRead_placeAtPc_gap hs hfits ha hpc, ?_, rfl, rfl, rfl, rfl, rfl, rfl, rfl, rfl, rfl,
    streamOk_placeAtPc hs hfits⟩
  · exact imemRead_placeAtPc_inside hs hfits (by rwa [hnine])
  · exact imemRead_placeAtPc_outside hfits ha (by rwa [hnine])
  · rw [← hnine]
    exact placeAtPc_streamLen hfits

end Sys2Proof.Machine
end
